-- ==== Sys2Proof/Word.lean ====
section
/-! DEFINITION. The word types of the engine (spec R5, R6: XLEN, PC_WIDTH, REM_WIDTH, HEAPLEN_WIDTH are 32; OPW and REGFW
are 8; IMMW is 16; NREGS is 32). The readings and conversions of section 4.1 of 00_scope.md stand in Decode.lean and
Machine/Ops.lean. -/

namespace Sys2Proof

/-- One byte of the program buffer; also the opcode field and a register field (R5: OPW, REGFW). -/
abbrev Byte := BitVec 8

/-- The immediate of LOAD (R5: IMMW). -/
abbrev Half := BitVec 16

/-- A general register, `pc`, `rem` and `heap_len` (R5: XLEN, R6: PC_WIDTH, REM_WIDTH, HEAPLEN_WIDTH). -/
abbrev Word := BitVec 32

/-- The index of a general register, 0 to 31 (R5: NREGS, R9). A register byte of 32 or more is no index (R40). -/
abbrev Reg := Fin 32

end Sys2Proof
end

