-- ==== Sys2Proof/Config.lean ====
section
/-! DEFINITION. The parameters the spec leaves open (R7) and the numbers it fixes (R5). An engine is built with one
`Params`; no step and no host operation changes them. The widths of R5 and R6 are the types of Word.lean. -/

namespace Sys2Proof

/-- `OVERFLOW_POLICY` of R7: what ADD, SUB, MUL and DIV do when the exact result does not fit in signed 32 bits (R69). -/
inductive OverflowPolicy
  /-- The exact result modulo 2^32 (D6, D7). The default. -/
  | wrap
  /-- Raise `ArithmeticOverflow` (R96). -/
  | fault
deriving DecidableEq, Repr

/-- The parameters of R7 that the model takes as arguments. `STEP_BUDGET` is an argument of `run` (R57). -/
structure Params where
  /-- `PROG_MAX`: the largest length in bytes the program buffer may reach. -/
  progMax : Nat
  /-- `HEAP_MAX`: the largest length in bytes the heap may reach. -/
  heapMax : Nat
  /-- `OVERFLOW_POLICY`. -/
  overflowPolicy : OverflowPolicy
deriving DecidableEq, Repr

/-- The constraints of R7: 4 <= PROG_MAX <= 2^32 - 1 and 0 <= HEAP_MAX <= 2^32 - 1. -/
abbrev Params.wf (p : Params) : Prop :=
  4 ≤ p.progMax ∧ p.progMax ≤ 4294967295 ∧ p.heapMax ≤ 4294967295

/-- The defaults of R7: both bounds 2^32 - 1, overflow wraps. -/
def Params.default : Params :=
  { progMax := 4294967295, heapMax := 4294967295, overflowPolicy := .wrap }

/-- `RECLEN` of R5: the bytes of one instruction record at the encoding boundary. -/
def recordLength : Nat := 4

/-- `NOPCODES` of R5: opcode numbers 0 to 17 are assigned. -/
def numOpcodes : Nat := 18

end Sys2Proof
end

