-- ==== Sys2Proof/Syntax.lean ====
section
/-! DEFINITION. The instruction set as syntax: the closed set of 18 opcodes (R45), the kinds of field an instruction
fetches (R38), the record of the encoder (R37) and `Instr`, one constructor per row of spec/opcode_table.json. -/

namespace Sys2Proof

/-- The 18 opcode variants, numbered as R43 numbers them: the closed set that R45 asks for. Every byte maps to one
(`Opcode.ofByte`, Decode.lean). -/
inductive Opcode
  | load | add | sub | mul | div | hlt | jmp | jmpf | jmpb
  | eq | neq | gte | lte | gt | lt | jmpe | illegal | aloc
deriving DecidableEq, Repr

/-- The kinds of byte an instruction fetches after its opcode byte (R38). -/
inductive FieldKind
  /-- A register field, checked against 32 as it arrives (R40, R51). -/
  | reg
  /-- One of the two bytes of the immediate, high byte first (R41, R50). -/
  | imm
  /-- Padding that is fetched and ignored (R42). -/
  | pad
deriving DecidableEq, Repr

/-- An instruction record, the encoder's unit (R37; 00_scope.md section 4.2): `b0` at the lowest offset. -/
structure Record where
  b0 : Byte
  b1 : Byte
  b2 : Byte
  b3 : Byte
deriving DecidableEq, Repr

/-- The instructions: one constructor per row of spec/opcode_table.json, operands in fetch order (R43). Consumed padding
is an operand without meaning (R42); bytes an instruction does not fetch are no part of it (R46). A constructor of an
unassigned row carries the free bits `o` of its opcode byte (R43, R77). -/
inductive Instr
  | load (reg : Reg) (imm16 : Half)
  | add (regA regB regDest : Reg)
  | sub (regA regB regDest : Reg)
  | mul (regA regB regDest : Reg)
  | div (regA regB regDest : Reg)
  | hlt
  | jmp (reg : Reg)
  | jmpf (reg : Reg)
  | jmpb (reg : Reg)
  | eq (regA regB : Reg) (pad : Byte)
  | neq (regA regB : Reg) (pad : Byte)
  | gte (regA regB : Reg) (pad : Byte)
  | lte (regA regB : Reg) (pad : Byte)
  | gt (regA regB : Reg) (pad : Byte)
  | lt (regA regB : Reg) (pad : Byte)
  | jmpe (reg : Reg)
  | illegal
  | aloc (reg : Reg) (pad1 pad2 : Byte)
  | unassigned18to19 (o : BitVec 1)
  | unassigned20to23 (o : BitVec 2)
  | unassigned24to31 (o : BitVec 3)
  | unassigned32to63 (o : BitVec 5)
  | unassigned64to127 (o : BitVec 6)
  | unassigned128to255 (o : BitVec 7)
deriving DecidableEq, Repr

end Sys2Proof
end

