-- ==== Sys2Proof/WellFormed.lean ====
section
/-! DEFINITION. Well-formedness: the contract between encoder and engine (R48). A register operand of an `Instr` is an
index below 32 by its type, so what is left to check of an instruction is that its opcode is an assigned one; of a
record, that its opcode byte is a number of R43 and that its register fields are 0 to 31. The engine relies on neither
(C12): it decodes any bytes. -/

namespace Sys2Proof

/-- The instruction's opcode byte is one that R43 assigns. The encoder emits no other (R48). -/
def Instr.wellFormed : Instr → Bool
  | .load _ _ => true
  | .add _ _ _ => true
  | .sub _ _ _ => true
  | .mul _ _ _ => true
  | .div _ _ _ => true
  | .hlt => true
  | .jmp _ => true
  | .jmpf _ => true
  | .jmpb _ => true
  | .eq _ _ _ => true
  | .neq _ _ _ => true
  | .gte _ _ _ => true
  | .lte _ _ _ => true
  | .gt _ _ _ => true
  | .lt _ _ _ => true
  | .jmpe _ => true
  | .illegal => true
  | .aloc _ _ _ => true
  | .unassigned18to19 _ => false
  | .unassigned20to23 _ => false
  | .unassigned24to31 _ => false
  | .unassigned32to63 _ => false
  | .unassigned64to127 _ => false
  | .unassigned128to255 _ => false

/-- How many leading bytes after the opcode byte are register fields, by the opcode byte's number (R38); `none` where
R43 assigns no opcode. -/
def registerFields (opcode : Nat) : Option Nat :=
  if opcode = 0 then some 1
  else if opcode ≤ 4 then some 3
  else if opcode = 5 then some 0
  else if opcode ≤ 8 then some 1
  else if opcode ≤ 14 then some 2
  else if opcode = 15 then some 1
  else if opcode = 16 then some 0
  else if opcode = 17 then some 1
  else none

/-- The well-formed records of R48: an assigned opcode number, and every register field 0 to 31. -/
def Record.wellFormed (r : Record) : Bool :=
  match registerFields r.b0.toNat with
  | none => false
  | some n => ([r.b1, r.b2, r.b3].take n).all fun b => decide (b.toNat < 32)

end Sys2Proof
end

