-- ==== Sys2Proof/Decode.lean ====
section
/-! DEFINITION. The decoder and the encoder. The decode primitives of R49 to R52 read a source of bytes (the program
buffer, or a list of bytes) at a fetch pointer; `decodeAt` is one decode: total on any bytes, field by field in offset
order, rejecting by name (R98). `encode` gives the bytes an instruction consumes, from the encoding tables of R38, R43. -/

namespace Sys2Proof

/-- The fields each opcode fetches after its opcode byte, in fetch order (the table of R37, the formats of R38). -/
def Opcode.fields : Opcode → List FieldKind
  | .load => [.reg, .imm, .imm]
  | .add | .sub | .mul | .div => [.reg, .reg, .reg]
  | .eq | .neq | .gte | .lte | .gt | .lt => [.reg, .reg, .pad]
  | .aloc => [.reg, .pad, .pad]
  | .jmp | .jmpf | .jmpb | .jmpe => [.reg]
  | .hlt | .illegal => []

/-- The consumed length of an opcode (R37): the opcode byte and the fields. -/
def Opcode.length (op : Opcode) : Nat := 1 + op.fields.length

/-- The opcode variant of an instruction: the six unassigned rows are ILLEGAL (R45, R77). -/
def Instr.opcode : Instr → Opcode
  | .load _ _ => .load
  | .add _ _ _ => .add
  | .sub _ _ _ => .sub
  | .mul _ _ _ => .mul
  | .div _ _ _ => .div
  | .hlt => .hlt
  | .jmp _ => .jmp
  | .jmpf _ => .jmpf
  | .jmpb _ => .jmpb
  | .eq _ _ _ => .eq
  | .neq _ _ _ => .neq
  | .gte _ _ _ => .gte
  | .lte _ _ _ => .lte
  | .gt _ _ _ => .gt
  | .lt _ _ _ => .lt
  | .jmpe _ => .jmpe
  | .illegal => .illegal
  | .aloc _ _ _ => .aloc
  | .unassigned18to19 _ => .illegal
  | .unassigned20to23 _ => .illegal
  | .unassigned24to31 _ => .illegal
  | .unassigned32to63 _ => .illegal
  | .unassigned64to127 _ => .illegal
  | .unassigned128to255 _ => .illegal

/-- The bytes of a record in increasing offset. -/
def Record.bytes (r : Record) : List Byte := [r.b0, r.b1, r.b2, r.b3]

/-- Why a decode stops (R98): each of the two is raised as the fault of the same name (R91). -/
inductive DecodeError
  /-- A byte at this offset could not be fetched (R49, R92). -/
  | malformedStream (offset : Nat)
  /-- A register field held this byte, which is 32 or more (R51, R93). -/
  | invalidRegisterIndex (b : Byte)
deriving DecidableEq, Repr

/-- Where bytes come from: the byte at an offset, or nothing at or beyond the end (R26). -/
abbrev ByteSource := Nat → Option Byte

/-- A list of bytes as a source, the first at offset 0. -/
def listSource (bs : List Byte) : ByteSource := fun a => bs[a]?

/-- What a fetch gives: a value and the advanced fetch pointer `npc`, or the error that ends the decode. -/
inductive Fetched (α : Type)
  | ok (v : α) (npc : Nat)
  | error (e : DecodeError)
deriving DecidableEq, Repr

/-- The next fetch starts at the advanced fetch pointer; an error ends the decode at once (R98). -/
def Fetched.andThen {α β : Type} (f : Fetched α) (k : α → Nat → Fetched β) : Fetched β :=
  match f with
  | .ok v npc => k v npc
  | .error e => .error e

/-- `FetchByte()` of R49, and `MemRead(npc, 1)` of R26. -/
def fetchByte (rd : ByteSource) (npc : Nat) : Fetched Byte :=
  match rd npc with
  | some b => .ok b (npc + 1)
  | none => .error (.malformedStream npc)

/-- The big-endian halfword of R24: the byte at the lower offset is the more significant. -/
def bigEndian (hi lo : Byte) : Half := hi ++ lo

/-- `FetchHalf()` of R50, and `MemRead(npc, 2)` of R26: two byte fetches, high byte first; an error carries the offset of
the first byte that could not be read. -/
def fetchHalf (rd : ByteSource) (npc : Nat) : Fetched Half :=
  (fetchByte rd npc).andThen fun hi npc =>
  (fetchByte rd npc).andThen fun lo npc =>
  .ok (bigEndian hi lo) npc

/-- The register a byte selects: its whole 8-bit value, never masked (R40). -/
def regOfByte (b : Byte) : Option Reg :=
  if h : b.toNat < 32 then some ⟨b.toNat, h⟩ else none

/-- `FetchReg()` of R51: the byte is checked as it arrives, before any later field is fetched. -/
def fetchReg (rd : ByteSource) (npc : Nat) : Fetched Reg :=
  (fetchByte rd npc).andThen fun b npc =>
  match regOfByte b with
  | some r => .ok r npc
  | none => .error (.invalidRegisterIndex b)

/-- The opcode numbers of R43, in order from 0. -/
def opcodeTable : List Opcode :=
  [.load, .add, .sub, .mul, .div, .hlt, .jmp, .jmpf, .jmpb, .eq, .neq, .gte, .lte, .gt, .lt, .jmpe, .illegal, .aloc]

/-- The opcode of a byte (R52): the table's up to 17, ILLEGAL for every other byte. -/
def Opcode.ofByte (b : Byte) : Opcode := opcodeTable[b.toNat]?.getD .illegal

/-- The instruction of a byte that maps to ILLEGAL: byte 16 itself, or the unassigned row the byte falls in, with the
free bits of that row (R43, R77). -/
def illegalOfByte (b : Byte) : Instr :=
  if b.toNat < 18 then .illegal
  else if b.toNat < 20 then .unassigned18to19 (b.setWidth 1)
  else if b.toNat < 24 then .unassigned20to23 (b.setWidth 2)
  else if b.toNat < 32 then .unassigned24to31 (b.setWidth 3)
  else if b.toNat < 64 then .unassigned32to63 (b.setWidth 5)
  else if b.toNat < 128 then .unassigned64to127 (b.setWidth 6)
  else .unassigned128to255 (b.setWidth 7)

/-- Format RI (R38): reg, imm16. -/
def fetchRI (mk : Reg → Half → Instr) (rd : ByteSource) (npc : Nat) : Fetched Instr :=
  (fetchReg rd npc).andThen fun r npc =>
  (fetchHalf rd npc).andThen fun imm npc =>
  .ok (mk r imm) npc

/-- Format RRR (R38): regA, regB, regDest. -/
def fetchRRR (mk : Reg → Reg → Reg → Instr) (rd : ByteSource) (npc : Nat) : Fetched Instr :=
  (fetchReg rd npc).andThen fun a npc =>
  (fetchReg rd npc).andThen fun b npc =>
  (fetchReg rd npc).andThen fun d npc =>
  .ok (mk a b d) npc

/-- Format RRP (R38): regA, regB, one padding byte that must exist and is not checked (R42). -/
def fetchRRP (mk : Reg → Reg → Byte → Instr) (rd : ByteSource) (npc : Nat) : Fetched Instr :=
  (fetchReg rd npc).andThen fun a npc =>
  (fetchReg rd npc).andThen fun b npc =>
  (fetchByte rd npc).andThen fun p npc =>
  .ok (mk a b p) npc

/-- Format RPP (R38): reg, two padding bytes that must exist and are not checked (R42). -/
def fetchRPP (mk : Reg → Byte → Byte → Instr) (rd : ByteSource) (npc : Nat) : Fetched Instr :=
  (fetchReg rd npc).andThen fun r npc =>
  (fetchByte rd npc).andThen fun p npc =>
  (fetchByte rd npc).andThen fun q npc =>
  .ok (mk r p q) npc

/-- Format R (R38): reg alone. The other two bytes of the record are not fetched (R37). -/
def fetchR (mk : Reg → Instr) (rd : ByteSource) (npc : Nat) : Fetched Instr :=
  (fetchReg rd npc).andThen fun r npc =>
  .ok (mk r) npc

/-- The operands an opcode fetches (the dispatch of R53, the formats of R38); `b` is the opcode byte itself. -/
def fetchOperands (rd : ByteSource) (b : Byte) (npc : Nat) : Opcode → Fetched Instr
  | .load => fetchRI .load rd npc
  | .add => fetchRRR .add rd npc
  | .sub => fetchRRR .sub rd npc
  | .mul => fetchRRR .mul rd npc
  | .div => fetchRRR .div rd npc
  | .hlt => .ok .hlt npc
  | .jmp => fetchR .jmp rd npc
  | .jmpf => fetchR .jmpf rd npc
  | .jmpb => fetchR .jmpb rd npc
  | .eq => fetchRRP .eq rd npc
  | .neq => fetchRRP .neq rd npc
  | .gte => fetchRRP .gte rd npc
  | .lte => fetchRRP .lte rd npc
  | .gt => fetchRRP .gt rd npc
  | .lt => fetchRRP .lt rd npc
  | .jmpe => fetchR .jmpe rd npc
  | .illegal => .ok (illegalOfByte b) npc
  | .aloc => fetchRPP .aloc rd npc

/-- One decode at a fetch pointer (R44, R52, R98): the instruction and the fetch pointer after its last consumed byte, or
the first error in offset order. -/
def decodeAt (rd : ByteSource) (npc : Nat) : Fetched Instr :=
  (fetchByte rd npc).andThen fun b npc =>
  fetchOperands rd b npc (Opcode.ofByte b)

/-- A register field: the index as a whole byte (R40). -/
def regByte (r : Reg) : Byte := BitVec.ofNat 8 r.val

/-- The more significant byte of an immediate (R41: B2 is imm16[15:8]). -/
def highByte (h : Half) : Byte := h.extractLsb' 8 8

/-- The less significant byte of an immediate (R41: B3 is imm16[7:0]). -/
def lowByte (h : Half) : Byte := h.extractLsb' 0 8

/-- The bytes an instruction consumes, from the formats of R38 and the numbers of R43. -/
def encode : Instr → List Byte
  | .load r imm => [0#8, regByte r, highByte imm, lowByte imm]
  | .add a b d => [1#8, regByte a, regByte b, regByte d]
  | .sub a b d => [2#8, regByte a, regByte b, regByte d]
  | .mul a b d => [3#8, regByte a, regByte b, regByte d]
  | .div a b d => [4#8, regByte a, regByte b, regByte d]
  | .hlt => [5#8]
  | .jmp r => [6#8, regByte r]
  | .jmpf r => [7#8, regByte r]
  | .jmpb r => [8#8, regByte r]
  | .eq a b p => [9#8, regByte a, regByte b, p]
  | .neq a b p => [10#8, regByte a, regByte b, p]
  | .gte a b p => [11#8, regByte a, regByte b, p]
  | .lte a b p => [12#8, regByte a, regByte b, p]
  | .gt a b p => [13#8, regByte a, regByte b, p]
  | .lt a b p => [14#8, regByte a, regByte b, p]
  | .jmpe r => [15#8, regByte r]
  | .illegal => [16#8]
  | .aloc r p q => [17#8, regByte r, p, q]
  | .unassigned18to19 o => [0b0001001#7 ++ o]
  | .unassigned20to23 o => [0b000101#6 ++ o]
  | .unassigned24to31 o => [0b00011#5 ++ o]
  | .unassigned32to63 o => [0b001#3 ++ o]
  | .unassigned64to127 o => [0b01#2 ++ o]
  | .unassigned128to255 o => [0b1#1 ++ o]

/-- The record the encoder emits for an instruction (R48): its bytes, and zero in every byte it does not consume (R42,
D16). -/
def encodeRecord (i : Instr) : Record :=
  { b0 := (encode i)[0]?.getD 0#8
    b1 := (encode i)[1]?.getD 0#8
    b2 := (encode i)[2]?.getD 0#8
    b3 := (encode i)[3]?.getD 0#8 }

/-- The record of a 32-bit table word (00_scope.md section 4.2, R38): B0 is bits 31:24, B3 is bits 7:0. Bits at and above
`nbits` are zero. -/
def tableRecord (nbits w : Nat) : Record :=
  { b0 := BitVec.ofNat 8 (w % 2 ^ nbits / 16777216)
    b1 := BitVec.ofNat 8 (w % 2 ^ nbits / 65536)
    b2 := BitVec.ofNat 8 (w % 2 ^ nbits / 256)
    b3 := BitVec.ofNat 8 (w % 2 ^ nbits) }

/-- The instruction the decoder reads from a table word laid out as its record; none where it refuses. -/
def decodeTableWord (nbits w : Nat) : Option Instr :=
  match decodeAt (listSource (tableRecord nbits w).bytes) 0 with
  | .ok i _ => some i
  | .error _ => none

end Sys2Proof
end

