-- ==== Sys2Proof/Machine/State.lean ====
section
/-! DEFINITION. The state of the engine as plain data (R9 to R22), the outcomes of a step (R55), the faults (R91), the
one reason to refuse, and the state after reset (R21). -/

namespace Sys2Proof.Machine

/-- The faults of R91. Each is raised by the step that meets it, through `raiseFault` (Machine/Ops.lean); the state is
left as it was when the step began (R97), which is why the outcome carries no state. Each is a stop the spec itself
prescribes. -/
inductive Fault
  /-- Code 1. Any byte fetch at or beyond `len(prog)` (R92), with the offset that failed (D20). Raised by `step` while it
  decodes. Safe: the machine stops where the spec has it stop. -/
  | malformedStream (offset : Nat)
  /-- Code 2. A register field of 32 to 255 (R93), with the byte (D20). Raised by `step` while it decodes. Safe. -/
  | invalidRegisterIndex (b : Byte)
  /-- Code 3. DIV with a zero divisor (R94). Raised by `execDiv`. Safe. -/
  | divideByZero
  /-- Code 4. ALOC to a length below 0 or above HEAP_MAX (R95, D9). Raised by `execAloc`. Safe. -/
  | heapRange
  /-- Code 5. ADD, SUB, MUL or DIV with an exact result outside signed 32 bits, under OVERFLOW_POLICY = fault only (R96,
  D6). Raised by `execAdd`, `execSub`, `execMul`, `execDiv`. Safe. -/
  | arithmeticOverflow
deriving DecidableEq, Repr

/-- Why the model has no answer. -/
inductive Refusal
  /-- An instruction whose meaning is not written: raised by an arm of `exec` only. Safe. No arm of this model raises
  it. -/
  | notModelled (mnemonic : String)
deriving DecidableEq, Repr

/-- The two causes of a normal halt (R55, C11). -/
inductive HaltCause
  | hlt
  | illegal
deriving DecidableEq, Repr

/-- What a step returns (R55): `Continue`, `Halt(cause)` or `Fault(kind)`. -/
inductive StepOutcome
  | continued
  | halted (c : HaltCause)
  | faulted (k : Fault)
deriving DecidableEq, Repr

/-- The program buffer (R13) as cells of offset and byte. Canonical form: `Memory.wf`. An offset without a cell has no
value: reading it is the `MalformedStream` of R26. -/
structure Memory where
  cells : List Host.Cell
deriving DecidableEq, Repr

/-- The cells of a byte sequence whose first byte is at offset `n`. -/
def cellsFrom (n : Nat) : List Byte → List Host.Cell
  | [] => []
  | b :: bs => (n, b) :: cellsFrom (n + 1) bs

/-- The bytes of a buffer in increasing offset. -/
def Memory.bytes (m : Memory) : List Byte := m.cells.map Prod.snd

/-- The canonical form: the cells are those of a byte sequence from offset 0, so the offsets rise by one from 0 and none is
missing below the length (R13, R23). -/
abbrev Memory.wf (m : Memory) : Prop := m.cells = cellsFrom 0 m.bytes

/-- The state of the engine (R18, R19: nothing else exists). -/
structure State where
  /-- The register file `x[0]` to `x[31]` (R9, R10). -/
  x : Vector Word 32
  /-- The program counter: the offset of the next opcode byte (R11). -/
  pc : Word
  /-- The program buffer (R13). -/
  prog : Memory
  /-- The heap's length in bytes (R14). The heap's bytes are all zero, so this is the whole heap (R15). -/
  heapLen : Word
  /-- The remainder of the last division (R16). -/
  rem : Word
  /-- The equality flag (R17). -/
  eqf : Bool
  /-- The last-outcome status that R20 allows a build to latch: written by every step, read by none; `none` is "no outcome
  yet" (R21). DESIGN CHOICE (log entry 1), safe: no rule reads it. -/
  lastOutcome : Option StepOutcome
  /-- The parameters of this engine (R7), written by nothing. DESIGN CHOICE (log entry 3), safe: claims hold for every
  value. -/
  params : Params
deriving DecidableEq, Repr

/-- What `exec` and `step` answer. -/
abbrev Result := Host.Outcome State Fault Refusal

/-- Construction with given parameters (R60, R107): every piece of state to its value in R21. -/
def construct (p : Params) : State :=
  { x := Vector.replicate 32 0#32
    pc := 0#32
    prog := { cells := [] }
    heapLen := 0#32
    rem := 0#32
    eqf := false
    lastOutcome := none
    params := p }

/-- The machine right after reset (R21), with the default parameters of R7. -/
def State.reset : State := construct Params.default

end Sys2Proof.Machine
end

