-- ==== Sys2Proof/Machine/Ops.lean ====
section
/-! DEFINITION. The shared operations: readings of a word (00_scope.md section 4.1), the program buffer, the registers,
the ways a step ends (R54, R55), and raising a fault (R97). -/

namespace Sys2Proof.Machine

/-- The signed reading `s(v)`. -/
def signed (v : Word) : Int := v.toInt

/-- `wrap32(z)`: the word whose unsigned reading is z modulo 2^32. -/
def wrap32 (z : Int) : Word := BitVec.ofInt 32 z

/-- `zext_32(v)` for a 16-bit value (R41). -/
def zext32 (v : Half) : Word := v.setWidth 32

/-- The first cell with a given offset, or no value. -/
def lookupCell : List Host.Cell → Nat → Option Byte
  | [], _ => none
  | (a, b) :: rest, n => if a = n then some b else lookupCell rest n

/-- Reading one byte of the program buffer (R26): no value at or beyond its length. -/
def Memory.read (m : Memory) (a : Nat) : Option Byte := lookupCell m.cells a

/-- `len(prog)` (R13). -/
def Memory.size (m : Memory) : Nat := m.cells.length

/-- The buffer that holds a byte sequence from offset 0. -/
def Memory.ofBytes (bs : List Byte) : Memory := { cells := cellsFrom 0 bs }

/-- The buffer with bytes added at its end (R59, R34: bytes already there never change). -/
def Memory.append (m : Memory) (bs : List Byte) : Memory := { cells := m.cells ++ cellsFrom m.size bs }

/-- The buffer with the bytes `bs` from offset `a` on, whatever stood there; a gap below `a` is filled with zero bytes. No
rule of the machine does this: it is the preload of R65 that `withFetchWord` stands for (log entry 10). -/
def Memory.placeAt (m : Memory) (a : Nat) (bs : List Byte) : Memory :=
  Memory.ofBytes ((m.bytes ++ List.replicate (a - m.size) 0#8).take a ++ bs ++ m.bytes.drop (a + bs.length))

/-- One byte of the heap, seen from outside (R15): zero below the length, none at or beyond it. No instruction reads it. -/
def heapByte (s : State) (a : Nat) : Option Byte := if a < s.heapLen.toNat then some 0#8 else none

/-- `x[r]`. -/
def readReg (r : Reg) (s : State) : Word := s.x[r]

/-- `x[r] <- v`. All registers are alike (R10). -/
def writeReg (r : Reg) (v : Word) (s : State) : State := { s with x := s.x.set r v }

/-- `pc <- t`. -/
def setPc (t : Word) (s : State) : State := { s with pc := t }

/-- `rem <- v` (R16). -/
def setRem (v : Word) (s : State) : State := { s with rem := v }

/-- `eqf <- b` (R17). -/
def setEqf (b : Bool) (s : State) : State := { s with eqf := b }

/-- `HeapResize(n)` (R35), for n from 0 to HEAP_MAX. -/
def heapResize (n : Int) (s : State) : State := { s with heapLen := wrap32 n }

/-- The last-outcome status (R20). -/
def latch (o : StepOutcome) (s : State) : State := { s with lastOutcome := some o }

/-- The fetch pointer after `n` consumed bytes (R54): `pc` still holds the offset of the opcode byte while an instruction
runs. Modulo 2^32; in a valid state a fetched instruction never wraps it (R12). -/
def npc (n : Nat) (s : State) : Word := s.pc + BitVec.ofNat 32 n

/-- A step that sets `pc` itself and completes with `Continue` (R54, R55). -/
def continueAt (t : Word) (s : State) : Result := .next (latch .continued (setPc t s))

/-- A step that falls through: `pc <- npc` after `n` consumed bytes, `Continue` (R54). -/
def continueAfter (n : Nat) (s : State) : Result := continueAt (npc n s) s

/-- `halt <cause>` (R55): the one opcode byte is consumed, `pc <- npc`, `Halt(cause)`. A next state, since the engine is
not locked (R61). -/
def haltStep (c : HaltCause) (s : State) : Result := .next (latch (.halted c) (setPc (npc 1 s) s))

/-- `raise <Fault>`: taking an exception on this machine (R97). Every piece of state keeps the value it had when the step
began, nothing is saved, no mode changes, control goes nowhere, and the kind goes to the host. There is no return from it
(R101). -/
def raiseFault (k : Fault) (_s : State) : Result := .fault k

/-- The fault an error of the decoder is raised as (R91, R98). -/
def faultOfDecode : DecodeError → Fault
  | .malformedStream a => .malformedStream a
  | .invalidRegisterIndex b => .invalidRegisterIndex b

/-- One decode at `pc` (R44): the instruction and the fetch pointer after it, or the first error (R98). -/
def fetchInstr (s : State) : Fetched Instr := decodeAt s.prog.read s.pc.toNat

/-- The code of a fault (R91, D12). Code 0 is no fault. -/
def Fault.code : Fault → Nat
  | .malformedStream _ => 1
  | .invalidRegisterIndex _ => 2
  | .divideByZero => 3
  | .heapRange => 4
  | .arithmeticOverflow => 5

/-- Halted, in the sense of R61: the last step returned something other than `Continue`. A view, not a lock. -/
def isHalted (s : State) : Bool :=
  match s.lastOutcome with
  | some (.halted _) => true
  | some (.faulted _) => true
  | some .continued => false
  | none => false

end Sys2Proof.Machine
end

