-- ==== Sys2Proof/Machine/Flags.lean ====
section
/-! DEFINITION. The one flag `eqf` and the overflow law. There are no carry, overflow, zero or negative flags (R17, R68). -/

namespace Sys2Proof.Machine

/-- REL of EQ (R84). -/
def relEq (va vb : Int) : Bool := decide (va = vb)

/-- REL of NEQ (R85). -/
def relNeq (va vb : Int) : Bool := decide (va ≠ vb)

/-- REL of GTE (R86). -/
def relGte (va vb : Int) : Bool := decide (vb ≤ va)

/-- REL of LTE (R87). -/
def relLte (va vb : Int) : Bool := decide (va ≤ vb)

/-- REL of GT (R88). -/
def relGt (va vb : Int) : Bool := decide (vb < va)

/-- REL of LT (R89). -/
def relLt (va vb : Int) : Bool := decide (va < vb)

/-- Whether an exact result fits in signed 32 bits (R69). -/
abbrev fitsSigned32 (z : Int) : Prop := -2147483648 ≤ z ∧ z ≤ 2147483647

/-- The overflow law `Overflow32(z)` (R69): the word to write, or nothing where `ArithmeticOverflow` is to be raised. -/
def overflow32 (policy : OverflowPolicy) (z : Int) : Option Word :=
  if fitsSigned32 z then some (wrap32 z)
  else match policy with
    | .wrap => some (wrap32 z)
    | .fault => none

end Sys2Proof.Machine
end

