-- ==== Sys2Proof/Machine/Operands.lean ====
section
/-! DEFINITION. The operand forms: how an instruction reads its registers and where its result goes. Sources are read
before anything is written (R54, R68). -/

namespace Sys2Proof.Machine

/-- A source register read as a signed number (R9): arithmetic, comparison, ALOC. -/
def signedOperand (r : Reg) (s : State) : Int := signed (readReg r s)

/-- A register read as a jump target or distance: the same 32 bits without a sign (R78). -/
def targetOperand (r : Reg) (s : State) : Word := readReg r s

/-- The skeleton of ADD, SUB, MUL, DIV after their exact result `z` is known (R68): the overflow law, then the write of
the destination, then `pc <- npc`. -/
def writeExact (z : Int) (d : Reg) (s : State) : Result :=
  match overflow32 s.params.overflowPolicy z with
  | some v => continueAfter 4 (writeReg d v s)
  | none => raiseFault .arithmeticOverflow s

/-- The skeleton of the six comparisons (R83): `eqf` becomes the relation of the two signed readings. -/
def compareWith (rel : Int → Int → Bool) (a b : Reg) (s : State) : Result :=
  continueAfter 4 (setEqf (rel (signedOperand a s) (signedOperand b s)) s)

end Sys2Proof.Machine
end

