-- ==== Sys2Proof/Machine/Arithmetic.lean ====
section
/-! DEFINITION. ADD, SUB, MUL, DIV (42_arithmetic.md). -/

namespace Sys2Proof.Machine

/-- ADD regA, regB, regDest (R70). -/
def execAdd (regA regB regDest : Reg) (s : State) : Result :=
  writeExact (signedOperand regA s + signedOperand regB s) regDest s

/-- SUB regA, regB, regDest (R71): the first operand is the minuend. -/
def execSub (regA regB regDest : Reg) (s : State) : Result :=
  writeExact (signedOperand regA s - signedOperand regB s) regDest s

/-- MUL regA, regB, regDest (R72). -/
def execMul (regA regB regDest : Reg) (s : State) : Result :=
  writeExact (signedOperand regA s * signedOperand regB s) regDest s

/-- The quotient rounded toward zero (R73, R74). -/
def truncQuotient (va vb : Int) : Int := va.tdiv vb

/-- The truncating remainder: va - q * vb (R73, R74). -/
def truncRemainder (va vb : Int) : Int := va - truncQuotient va vb * vb

/-- DIV regA, regB, regDest (R73): the divisor is checked before the overflow law, and `rem` is written only when the
step completes. -/
def execDiv (regA regB regDest : Reg) (s : State) : Result :=
  let va := signedOperand regA s
  let vb := signedOperand regB s
  if vb = 0 then raiseFault .divideByZero s
  else writeExact (truncQuotient va vb) regDest (setRem (wrap32 (truncRemainder va vb)) s)

end Sys2Proof.Machine
end

