-- ==== Sys2Proof/Machine/Compare.lean ====
section
/-! DEFINITION. EQ, NEQ, GTE, LTE, GT, LT (45_compare.md): signed comparisons into `eqf`. -/

namespace Sys2Proof.Machine

/-- EQ regA, regB (R84). -/
def execEq (regA regB : Reg) (s : State) : Result := compareWith relEq regA regB s

/-- NEQ regA, regB (R85). -/
def execNeq (regA regB : Reg) (s : State) : Result := compareWith relNeq regA regB s

/-- GTE regA, regB (R86). -/
def execGte (regA regB : Reg) (s : State) : Result := compareWith relGte regA regB s

/-- LTE regA, regB (R87). -/
def execLte (regA regB : Reg) (s : State) : Result := compareWith relLte regA regB s

/-- GT regA, regB (R88). -/
def execGt (regA regB : Reg) (s : State) : Result := compareWith relGt regA regB s

/-- LT regA, regB (R89). -/
def execLt (regA regB : Reg) (s : State) : Result := compareWith relLt regA regB s

end Sys2Proof.Machine
end

