-- ==== Sys2Proof/Machine/Halt.lean ====
section
/-! DEFINITION. HLT, ILLEGAL and the unassigned opcode bytes (43_halt_illegal.md). Each consumes one byte. -/

namespace Sys2Proof.Machine

/-- HLT (R75). -/
def execHlt (s : State) : Result := haltStep .hlt s

/-- ILLEGAL, opcode byte 16 (R76). -/
def execIllegal (s : State) : Result := haltStep .illegal s

/-- Opcode bytes 18 and 19 (R77). -/
def execUnassigned18to19 (s : State) : Result := haltStep .illegal s

/-- Opcode bytes 20 to 23 (R77). -/
def execUnassigned20to23 (s : State) : Result := haltStep .illegal s

/-- Opcode bytes 24 to 31 (R77). -/
def execUnassigned24to31 (s : State) : Result := haltStep .illegal s

/-- Opcode bytes 32 to 63 (R77). -/
def execUnassigned32to63 (s : State) : Result := haltStep .illegal s

/-- Opcode bytes 64 to 127 (R77). -/
def execUnassigned64to127 (s : State) : Result := haltStep .illegal s

/-- Opcode bytes 128 to 255 (R77). -/
def execUnassigned128to255 (s : State) : Result := haltStep .illegal s

end Sys2Proof.Machine
end

