-- ==== Sys2Proof/Machine/Heap.lean ====
section
/-! DEFINITION. ALOC (46_aloc.md). -/

namespace Sys2Proof.Machine

/-- The length ALOC asks for: the heap's length plus the signed register, exact (R90). -/
def requestedLength (reg : Reg) (s : State) : Int := (s.heapLen.toNat : Int) + signedOperand reg s

/-- ALOC reg (R90): out of 0 to HEAP_MAX faults, else the heap is resized. -/
def execAloc (reg : Reg) (s : State) : Result :=
  let n := requestedLength reg s
  if n < 0 ∨ (s.params.heapMax : Int) < n then raiseFault .heapRange s
  else continueAfter 4 (heapResize n s)

end Sys2Proof.Machine
end

