-- ==== Sys2Proof/Machine/Jumps.lean ====
section
/-! DEFINITION. JMP, JMPF, JMPB, JMPE (44_jumps.md). Each consumes two bytes, so `npc` is the jump's own offset plus 2. -/

namespace Sys2Proof.Machine

/-- JMP reg (R79): absolute. The target is not checked (R78). -/
def execJmp (reg : Reg) (s : State) : Result := continueAt (targetOperand reg s) s

/-- JMPF reg (R80): `npc` plus the register, modulo 2^32. -/
def execJmpf (reg : Reg) (s : State) : Result := continueAt (npc 2 s + targetOperand reg s) s

/-- JMPB reg (R81): `npc` minus the register, modulo 2^32. -/
def execJmpb (reg : Reg) (s : State) : Result := continueAt (npc 2 s - targetOperand reg s) s

/-- JMPE reg (R82): as JMP if `eqf`, else on to `npc`, which is 2 and not 4 bytes on (C6). -/
def execJmpe (reg : Reg) (s : State) : Result :=
  if s.eqf then continueAt (targetOperand reg s) s else continueAfter 2 s

end Sys2Proof.Machine
end

