-- ==== Sys2Proof/Machine/Load.lean ====
section
/-! DEFINITION. LOAD (41_load.md). -/

namespace Sys2Proof.Machine

/-- LOAD reg, imm16 (R67). -/
def execLoad (reg : Reg) (imm16 : Half) (s : State) : Result :=
  continueAfter 4 (writeReg reg (zext32 imm16) s)

end Sys2Proof.Machine
end

