-- ==== Sys2Proof/Machine/Dispatch.lean ====
section
/-! DEFINITION. The dispatch table (R53): one arm per row of spec/opcode_table.json. -/

namespace Sys2Proof.Machine

/-- The effect of a fetched instruction on the state in which its fetch began (R54). -/
def exec (i : Instr) (s : State) : Host.Outcome State Fault Refusal :=
  match i with
  | .load reg imm16 => Sys2Proof.Machine.execLoad reg imm16 s
  | .add regA regB regDest => Sys2Proof.Machine.execAdd regA regB regDest s
  | .sub regA regB regDest => Sys2Proof.Machine.execSub regA regB regDest s
  | .mul regA regB regDest => Sys2Proof.Machine.execMul regA regB regDest s
  | .div regA regB regDest => Sys2Proof.Machine.execDiv regA regB regDest s
  | .hlt => Sys2Proof.Machine.execHlt s
  | .jmp reg => Sys2Proof.Machine.execJmp reg s
  | .jmpf reg => Sys2Proof.Machine.execJmpf reg s
  | .jmpb reg => Sys2Proof.Machine.execJmpb reg s
  | .eq regA regB _ => Sys2Proof.Machine.execEq regA regB s
  | .neq regA regB _ => Sys2Proof.Machine.execNeq regA regB s
  | .gte regA regB _ => Sys2Proof.Machine.execGte regA regB s
  | .lte regA regB _ => Sys2Proof.Machine.execLte regA regB s
  | .gt regA regB _ => Sys2Proof.Machine.execGt regA regB s
  | .lt regA regB _ => Sys2Proof.Machine.execLt regA regB s
  | .jmpe reg => Sys2Proof.Machine.execJmpe reg s
  | .illegal => Sys2Proof.Machine.execIllegal s
  | .aloc reg _ _ => Sys2Proof.Machine.execAloc reg s
  | .unassigned18to19 _ => Sys2Proof.Machine.execUnassigned18to19 s
  | .unassigned20to23 _ => Sys2Proof.Machine.execUnassigned20to23 s
  | .unassigned24to31 _ => Sys2Proof.Machine.execUnassigned24to31 s
  | .unassigned32to63 _ => Sys2Proof.Machine.execUnassigned32to63 s
  | .unassigned64to127 _ => Sys2Proof.Machine.execUnassigned64to127 s
  | .unassigned128to255 _ => Sys2Proof.Machine.execUnassigned128to255 s

end Sys2Proof.Machine
end

