-- ==== Sys2Proof/Machine/Step.lean ====
section
/-! DEFINITION. The step (R54): decode one instruction at `pc`, then run it; the first error of the decode is raised as
its fault. Every definition it calls stands elsewhere. -/

namespace Sys2Proof.Machine

/-- One step. It makes no check of what the last step returned (R56, R61). -/
def step (s : State) : Host.Outcome State Fault Refusal :=
  match fetchInstr s with
  | .ok i _ => exec i s
  | .error e => raiseFault (faultOfDecode e) s

/-- The state with a table word's record in the program buffer at `pc`, where the next step fetches. -/
def State.withFetchWord (s : State) (nbits w : Nat) : State :=
  { s with prog := s.prog.placeAt s.pc.toNat (tableRecord nbits w).bytes }

end Sys2Proof.Machine
end

