-- ==== Sys2Proof/Machine/HostOps.lean ====
section
/-! DEFINITION. The host's operations at transaction level (R56 to R65): append, run-once, run-to-completion, inspect,
preload, and construct (Machine/State.lean). Each runs to completion; none happens during a step (R63). -/

namespace Sys2Proof.Machine

/-- What append returns (R59). -/
inductive AppendReply
  | appendOk
  | appendRefused
deriving DecidableEq, Repr

/-- Append of one record (R59): the four bytes go to the end of the buffer, whatever they are, or nothing happens if the
buffer would exceed PROG_MAX. -/
def append (r : Record) (s : State) : AppendReply × State :=
  if s.params.progMax < s.prog.size + recordLength then (.appendRefused, s)
  else (.appendOk, { s with prog := s.prog.append r.bytes })

/-- Run-once (R56): one step and its outcome (R55). After a fault all state is as before (R97) and the last-outcome status
holds the fault (R20). An error is a refusal of the model, which no instruction of it raises. -/
def runOnce (s : State) : Except Refusal (StepOutcome × State) :=
  match step s with
  | .next t => .ok (t.lastOutcome.getD .continued, t)
  | .fault k => .ok (.faulted k, latch (.faulted k) s)
  | .refused r => .error r

/-- What run-to-completion returns (R57, R58). -/
inductive RunResult
  | halted (c : HaltCause)
  | faulted (k : Fault)
  | endOfBuffer
  | stepLimit
  /-- The model's own: an instruction without a meaning. There is none. -/
  | refused (r : Refusal)
deriving DecidableEq, Repr

/-- The budget test of R57: an absent budget is never spent (D15). -/
def budgetSpent : Option Nat → Nat → Bool
  | none, _ => false
  | some b, n => decide (b ≤ n)

/-- The loop of R57 after `n` steps: the bound test, then the budget test, then a step, as long as steps answer
`Continue`. `none` means that `fuel` steps were not enough; the loop itself has no fuel (R113). -/
def runLoop (fuel : Nat) (budget : Option Nat) (n : Nat) (s : State) : Option (RunResult × State) :=
  if s.prog.size ≤ s.pc.toNat then some (.endOfBuffer, s)
  else if budgetSpent budget n then some (.stepLimit, s)
  else
    match fuel with
    | 0 => none
    | fuel + 1 =>
      match runOnce s with
      | .ok (.continued, t) => runLoop fuel budget (n + 1) t
      | .ok (.halted c, t) => some (.halted c, t)
      | .ok (.faulted k, t) => some (.faulted k, t)
      | .error r => some (.refused r, s)

/-- Run-to-completion with an optional step budget (R57), under fuel. -/
def run (fuel : Nat) (budget : Option Nat) (s : State) : Option (RunResult × State) := runLoop fuel budget 0 s

/-- The items the host can read (R64, R22), and the last-outcome status (R20). -/
inductive Item
  | reg (r : Reg)
  | pc
  | progLength
  | progByte (a : Nat)
  | heapLen
  | rem
  | eqf
  | lastOutcome
deriving DecidableEq, Repr

/-- What an inspected item holds. -/
inductive ItemValue
  | word (v : Word)
  | length (n : Nat)
  | byte (b : Option Byte)
  | flag (b : Bool)
  | outcome (o : Option StepOutcome)
deriving DecidableEq, Repr

/-- Inspection (R64): changes nothing. -/
def inspect (i : Item) (s : State) : ItemValue :=
  match i with
  | .reg r => .word (readReg r s)
  | .pc => .word s.pc
  | .progLength => .length s.prog.size
  | .progByte a => .byte (s.prog.read a)
  | .heapLen => .word s.heapLen
  | .rem => .word s.rem
  | .eqf => .flag s.eqf
  | .lastOutcome => .outcome s.lastOutcome

/-- An item and a value to preload it with (R65). -/
inductive Preload
  | reg (r : Reg) (v : Word)
  | pc (v : Word)
  | eqf (b : Bool)
  | rem (v : Word)
  | heapLen (v : Word)
  | prog (bs : List Byte)
deriving DecidableEq, Repr

/-- Preload (R65): that item and nothing else. A heap length above HEAP_MAX and a buffer longer than PROG_MAX are outside
what R65 allows and are rejected: DESIGN CHOICE (log entry 12), safe. -/
def preload (p : Preload) (s : State) : Option State :=
  match p with
  | .reg r v => some (writeReg r v s)
  | .pc v => some (setPc v s)
  | .eqf b => some (setEqf b s)
  | .rem v => some (setRem v s)
  | .heapLen v => if v.toNat ≤ s.params.heapMax then some { s with heapLen := v } else none
  | .prog bs => if bs.length ≤ s.params.progMax then some { s with prog := Memory.ofBytes bs } else none

/-- The operations of R63. -/
inductive HostOp
  | construct
  | append (r : Record)
  | runOnce
  | run (budget : Option Nat)
  | inspect (i : Item)
  | preload (p : Preload)
deriving DecidableEq, Repr

/-- What the engine returns to each operation of R63. -/
inductive Reply
  | constructed
  | appended (a : AppendReply)
  | stepped (o : StepOutcome)
  | ran (r : RunResult)
  | value (v : ItemValue)
  | preloaded
  | preloadRejected
  /-- The model's own: an instruction without a meaning. There is none. -/
  | refused (r : Refusal)
deriving DecidableEq, Repr

/-- One host operation (R63): the reply and the state after it. `none` only where a run needs more than `fuel` steps. -/
def perform (fuel : Nat) (op : HostOp) (s : State) : Option (Reply × State) :=
  match op with
  | .construct => some (.constructed, Sys2Proof.Machine.construct s.params)
  | .append r => some (.appended (Sys2Proof.Machine.append r s).1, (Sys2Proof.Machine.append r s).2)
  | .runOnce =>
    match Sys2Proof.Machine.runOnce s with
    | .ok (o, t) => some (.stepped o, t)
    | .error r => some (.refused r, s)
  | .run budget =>
    match Sys2Proof.Machine.run fuel budget s with
    | some (r, t) => some (.ran r, t)
    | none => none
  | .inspect i => some (.value (Sys2Proof.Machine.inspect i s), s)
  | .preload p =>
    match Sys2Proof.Machine.preload p s with
    | some t => some (.preloaded, t)
    | none => some (.preloadRejected, s)

/-- The number of a step outcome where one is encoded (D12). -/
def StepOutcome.code : StepOutcome → Nat
  | .continued => 0
  | .halted .hlt => 1
  | .halted .illegal => 2
  | .faulted _ => 5

/-- The number of a run's result where one is encoded (D12); none for the model's own refusal. -/
def RunResult.code : RunResult → Option Nat
  | .halted .hlt => some 1
  | .halted .illegal => some 2
  | .endOfBuffer => some 3
  | .stepLimit => some 4
  | .faulted _ => some 5
  | .refused _ => none

end Sys2Proof.Machine
end

