-- ==== Sys2Proof/Machine/Fsm.lean ====
section
/-! DEFINITION. The dispatch FSM of R62, phase by phase. It restates the step of R54 and carries no timing: a tick is one
visit of a phase, not a clock cycle. `Fsm` is a second machine beside `step`; its architectural state is a `State`. The host
reaches it through `Fsm.host`, which takes an operation in IDLE and rejects it elsewhere. The details that R62 leaves open
are DESIGN CHOICE, safe (log entry 13). -/

namespace Sys2Proof.Machine

/-- The phases of R62. FAULT holds what was raised; DONE holds the outcome it reports. -/
inductive Phase
  | idle
  | opcode
  | field
  | execute
  | done (o : StepOutcome)
  | fault (k : Fault)
deriving DecidableEq, Repr

/-- The commands that make the FSM leave IDLE (R62). -/
inductive Command
  | runOnce
  | run (budget : Option Nat)
deriving DecidableEq, Repr

/-- The FSM: the architectural state and the latches of a step in progress. -/
structure Fsm where
  phase : Phase
  /-- The architectural state. -/
  engine : State
  /-- The command being served, if any. -/
  command : Option Command
  /-- The steps this run has executed (`n` of R57). -/
  count : Nat
  /-- The fetch pointer. -/
  npc : Nat
  /-- The latched opcode. -/
  op : Opcode
  /-- The kinds of field still to fetch. -/
  pending : List FieldKind
  /-- The register fields fetched so far, in fetch order. -/
  regs : List Reg
  /-- The 16-bit latch of the immediate. -/
  imm : Half
  /-- The reply to the last host operation; none while a command is being served. -/
  report : Option Reply
deriving DecidableEq, Repr

/-- The FSM in IDLE with nothing to serve and empty latches. -/
def Fsm.ready (s : State) : Fsm :=
  { phase := .idle, engine := s, command := none, count := 0, npc := 0, op := .load, pending := [], regs := [],
    imm := 0#16, report := none }

/-- The FSM takes host operations only in IDLE with no command waiting (R62): during a run it passes through IDLE between
two steps, and there the run is not yet complete (R63). -/
def Fsm.acceptsHost (f : Fsm) : Bool := decide (f.phase = .idle) && f.command.isNone

/-- A command is put to be served. -/
def Fsm.take (c : Command) (f : Fsm) : Fsm := { f with command := some c, count := 0, report := none }

/-- An operation served at once in IDLE, without a step: the state after it and the reply. -/
def Fsm.served (x : Reply × State) (f : Fsm) : Fsm := { f with engine := x.2, report := some x.1 }

/-- What IDLE does with an operation it takes (R62): run-once and run become the command to serve, every other operation
of R63 is served on the spot. -/
def Fsm.idleServe (op : HostOp) (f : Fsm) : Fsm :=
  match op with
  | .runOnce => f.take .runOnce
  | .run budget => f.take (.run budget)
  | .construct => f.served (.constructed, Sys2Proof.Machine.construct f.engine.params)
  | .append r =>
    f.served (.appended (Sys2Proof.Machine.append r f.engine).1, (Sys2Proof.Machine.append r f.engine).2)
  | .inspect i => f.served (.value (Sys2Proof.Machine.inspect i f.engine), f.engine)
  | .preload p =>
    match Sys2Proof.Machine.preload p f.engine with
    | some t => f.served (.preloaded, t)
    | none => f.served (.preloadRejected, f.engine)

/-- A host operation offered to the FSM (R62): taken in IDLE with no command waiting, rejected (`none`) everywhere
else. -/
def Fsm.host (op : HostOp) (f : Fsm) : Option Fsm := if f.acceptsHost then some (f.idleServe op) else none

/-- The operation that gives a command. -/
def Command.hostOp : Command → HostOp
  | .runOnce => .runOnce
  | .run budget => .run budget

/-- The FSM in IDLE that has just taken a command: the command comes through the guard of `Fsm.host`. -/
def Fsm.start (c : Command) (s : State) : Fsm := ((Fsm.ready s).host c.hostOp).getD (Fsm.ready s)

/-- A command is finished: back to IDLE with a report. -/
def Fsm.finish (r : Reply) (f : Fsm) : Fsm := { f with phase := .idle, command := none, report := some r }

/-- The start of a step: the fetch pointer is `pc` (R54). -/
def Fsm.enterOpcode (f : Fsm) : Fsm := { f with phase := .opcode, npc := f.engine.pc.toNat }

/-- A `raise`: to FAULT. -/
def Fsm.fail (k : Fault) (f : Fsm) : Fsm := { f with phase := .fault k }

/-- On to the next field, or to EXECUTE if none remains. -/
def Fsm.nextField (rest : List FieldKind) (f : Fsm) : Fsm :=
  { f with npc := f.npc + 1, pending := rest, phase := if rest = [] then .execute else .field }

/-- The instruction of the latched opcode and fields. Padding was dropped (R62), so it stands as zero; no meaning reads
it. -/
def Fsm.assemble (f : Fsm) : Instr :=
  let ra := f.regs[0]?.getD 0
  let rb := f.regs[1]?.getD 0
  let rc := f.regs[2]?.getD 0
  match f.op with
  | .load => .load ra f.imm
  | .add => .add ra rb rc
  | .sub => .sub ra rb rc
  | .mul => .mul ra rb rc
  | .div => .div ra rb rc
  | .hlt => .hlt
  | .jmp => .jmp ra
  | .jmpf => .jmpf ra
  | .jmpb => .jmpb ra
  | .eq => .eq ra rb 0#8
  | .neq => .neq ra rb 0#8
  | .gte => .gte ra rb 0#8
  | .lte => .lte ra rb 0#8
  | .gt => .gt ra rb 0#8
  | .lt => .lt ra rb 0#8
  | .jmpe => .jmpe ra
  | .illegal => .illegal
  | .aloc => .aloc ra 0#8 0#8

/-- IDLE: waits for a command; for a run, the tests of R57 come first. -/
def Fsm.tickIdle (f : Fsm) : Fsm :=
  match f.command with
  | none => f
  | some .runOnce => f.enterOpcode
  | some (.run budget) =>
    if f.engine.prog.size ≤ f.engine.pc.toNat then f.finish (.ran .endOfBuffer)
    else if budgetSpent budget f.count then f.finish (.ran .stepLimit)
    else f.enterOpcode

/-- OPCODE: fetches the opcode byte and latches the opcode and the kinds of field to fetch. -/
def Fsm.tickOpcode (f : Fsm) : Fsm :=
  match f.engine.prog.read f.npc with
  | none => f.fail (.malformedStream f.npc)
  | some b =>
    Fsm.nextField (Opcode.ofByte b).fields { f with op := Opcode.ofByte b, regs := [], imm := 0#16 }

/-- FIELD: one byte per visit. A register field is checked as it arrives; an immediate byte is shifted into the latch, high
byte first; padding is dropped. -/
def Fsm.tickField (f : Fsm) : Fsm :=
  match f.pending with
  | [] => { f with phase := .execute }
  | kind :: rest =>
    match f.engine.prog.read f.npc with
    | none => f.fail (.malformedStream f.npc)
    | some b =>
      match kind with
      | .reg =>
        match regOfByte b with
        | none => f.fail (.invalidRegisterIndex b)
        | some r => Fsm.nextField rest { f with regs := f.regs ++ [r] }
      | .imm => Fsm.nextField rest { f with imm := (f.imm <<< 8) ||| b.setWidth 16 }
      | .pad => Fsm.nextField rest f

/-- How a refusal of the model is reported to a command. -/
def refusalReport : Option Command → Refusal → Reply
  | some (.run _), r => .ran (.refused r)
  | some .runOnce, r => .refused r
  | none, r => .refused r

/-- EXECUTE: the one phase that reads the source registers and writes results. -/
def Fsm.tickExecute (f : Fsm) : Fsm :=
  match exec f.assemble f.engine with
  | .next t => { f with engine := t, phase := .done (t.lastOutcome.getD .continued) }
  | .fault k => f.fail k
  | .refused r => f.finish (refusalReport f.command r)

/-- FAULT: discards `npc` and the latches; only the last-outcome status is written (R20). -/
def Fsm.tickFault (k : Fault) (f : Fsm) : Fsm :=
  { f with engine := latch (.faulted k) f.engine, npc := f.engine.pc.toNat, pending := [], regs := [],
           phase := .done (.faulted k) }

/-- DONE: reports the outcome; a run goes on after `Continue`. -/
def Fsm.tickDone (o : StepOutcome) (f : Fsm) : Fsm :=
  match f.command with
  | some (.run _) =>
    match o with
    | .continued => { f with phase := .idle, count := f.count + 1 }
    | .halted c => f.finish (.ran (.halted c))
    | .faulted k => f.finish (.ran (.faulted k))
  | some .runOnce => f.finish (.stepped o)
  | none => f.finish (.stepped o)

/-- One visit of the present phase. -/
def Fsm.tick (f : Fsm) : Fsm :=
  match f.phase with
  | .idle => f.tickIdle
  | .opcode => f.tickOpcode
  | .field => f.tickField
  | .execute => f.tickExecute
  | .done o => f.tickDone o
  | .fault k => f.tickFault k

/-- One transition of the FSM with the host's request, if any: a request that `Fsm.host` takes is what happens; a rejected
one changes nothing, and the FSM visits its phase as if there were none. -/
def Fsm.transition (request : Option HostOp) (f : Fsm) : Fsm :=
  match request with
  | none => f.tick
  | some op => (f.host op).getD f.tick

/-- `n` visits. -/
def Fsm.ticks : Nat → Fsm → Fsm
  | 0, f => f
  | n + 1, f => Fsm.ticks n f.tick

end Sys2Proof.Machine
end

