-- ==== Sys2Proof/Safety.lean ====
section
/-! DEFINITION. The words claims are stated in: the valid (launch) states of R22, and what stays the same across a step,
part by part. -/

namespace Sys2Proof.Machine

/-- A state the model may start from (R22): parameters within R7, a canonical program buffer no longer than PROG_MAX, a
heap no longer than HEAP_MAX; registers, `pc`, `rem` and `eqf` are free. -/
abbrev State.Valid (s : State) : Prop :=
  s.params.wf ∧ s.prog.wf ∧ s.prog.size ≤ s.params.progMax ∧ s.heapLen.toNat ≤ s.params.heapMax

/-- Every general register holds what it held. -/
def sameRegs (s t : State) : Prop := ∀ r : Reg, readReg r t = readReg r s

/-- Every general register but `d` holds what it held. -/
def sameRegsExcept (d : Reg) (s t : State) : Prop := ∀ r : Reg, r ≠ d → readReg r t = readReg r s

/-- Every byte of the program buffer reads as it did, at every offset, and the buffer is as long as it was. -/
def sameProgram (s t : State) : Prop := (∀ a : Nat, t.prog.read a = s.prog.read a) ∧ t.prog.size = s.prog.size

/-- Every byte of the heap is as it was, and the heap is as long as it was. -/
def sameHeap (s t : State) : Prop := (∀ a : Nat, heapByte t a = heapByte s a) ∧ t.heapLen = s.heapLen

/-- The bytes of an instruction stand in the program buffer from `pc` on. -/
def instrAtPc (i : Instr) (s : State) : Prop :=
  ∀ k, k < (encode i).length → s.prog.read (s.pc.toNat + k) = (encode i)[k]?

/-- An answer of the machine with the equality flag of its state forgotten. -/
def forgetEqf : Result → Result
  | .next t => .next (setEqf false t)
  | .fault k => .fault k
  | .refused r => .refused r

/-- Two answers of the machine agree but for the equality flag. -/
def sameButEqf (a b : Result) : Prop := forgetEqf a = forgetEqf b

end Sys2Proof.Machine
end

