-- ==== Sys2Proof/Certificates/Slice0/Obligations.lean ====
section
/-! DEFINITION. The statements for the provers. Each docstring names the rule of the spec it formalises; where a clause
rests on a choice of the model, the docstring names the log entry. -/

open Sys2Proof Sys2Proof.Machine

/-! ### Encoding -/

/-- Decode and encode agree, one way (R38, R43, R44): wherever the bytes of an instruction stand, the decoder reads that
instruction and leaves the fetch pointer after its last consumed byte. For every instruction and every operand. -/
def Obligations.DecodeOfEncodeIsTheInstruction : Prop :=
  ∀ (i : Instr) (rd : ByteSource) (p : Nat),
    (∀ k, k < (encode i).length → rd (p + k) = (encode i)[k]?) →
    decodeAt rd p = .ok i (p + (encode i).length)

/-- Decode and encode agree, the other way (R38, R43, R44): what the decoder reads as an instruction is exactly that
instruction's bytes, so no two instructions share an encoding and nothing beyond the consumed bytes matters. -/
def Obligations.DecodedBytesAreTheEncoding : Prop :=
  ∀ (rd : ByteSource) (p : Nat) (i : Instr) (n : Nat),
    decodeAt rd p = .ok i n →
    n = p + (encode i).length ∧ ∀ k, k < (encode i).length → rd (p + k) = (encode i)[k]?

/-- R39, R43, R52 and the consumed lengths of R37: the opcode byte alone selects the instruction and how many bytes it
consumes; numbers 0 to 17 select the opcode of that number, every other byte ILLEGAL. -/
def Obligations.OpcodeByteSelectsInstructionAndLength : Prop :=
  ∀ (rd : ByteSource) (p : Nat) (i : Instr) (n : Nat),
    decodeAt rd p = .ok i n →
    ∃ b, rd p = some b ∧
      (b.toNat ≤ 17 →
        [Opcode.load, .add, .sub, .mul, .div, .hlt, .jmp, .jmpf, .jmpb, .eq, .neq, .gte, .lte, .gt, .lt, .jmpe, .illegal,
          .aloc][b.toNat]? = some i.opcode) ∧
      (17 < b.toNat → i.opcode = .illegal) ∧
      n = p + (if b.toNat = 5 ∨ b.toNat = 16 ∨ 18 ≤ b.toNat then 1
               else if b.toNat = 6 ∨ b.toNat = 7 ∨ b.toNat = 8 ∨ b.toNat = 15 then 2
               else 4)

/-- R45: decoding is total. A byte of 16 or of 18 and above decodes, whatever follows it, to an instruction whose opcode is
ILLEGAL and which consumes that one byte: byte 16 to ILLEGAL itself, every other to one that behaves exactly as ILLEGAL,
and running it in any state halts with cause ILLEGAL and raises no fault. A step at a state with such a byte at `pc`
advances `pc` by one, reports Halt(ILLEGAL) and changes nothing else. The outcome is read from the latched status, which
is the model's choice (log entry 1). -/
def Obligations.UnrecognizedBytesDecodeToIllegal : Prop :=
  (∀ (rd : ByteSource) (p : Nat) (b : Byte),
    rd p = some b → b.toNat = 16 ∨ 18 ≤ b.toNat →
    ∃ i, decodeAt rd p = .ok i (p + 1) ∧ i.opcode = .illegal ∧ (b.toNat = 16 → i = .illegal) ∧
      ∀ s : State, exec i s = exec .illegal s ∧
        ∃ t, exec i s = .next t ∧ t.lastOutcome = some (.halted .illegal)) ∧
  (∀ (s : State) (b : Byte),
    s.prog.read s.pc.toNat = some b → b.toNat = 16 ∨ 18 ≤ b.toNat →
    step s = .next { s with pc := s.pc + 1#32, lastOutcome := some (.halted .illegal) })

/-- R48: a record meets the encoder's contract exactly when the decoder reads an assigned instruction from it. -/
def Obligations.RecordWellFormedIffAssignedInstruction : Prop :=
  ∀ r : Record,
    r.wellFormed = true ↔ ∃ i n, decodeAt (listSource r.bytes) 0 = .ok i n ∧ i.wellFormed = true

/-- R41, R42, R48: the record the encoder emits for any instruction decodes to that instruction, and every byte the
instruction does not consume is zero (the zero is D16, the spec's own decision). -/
def Obligations.EncodedRecordDecodesAndPadsWithZero : Prop :=
  ∀ i : Instr,
    decodeAt (listSource (encodeRecord i).bytes) 0 = .ok i (encode i).length ∧
    ∀ k, (encode i).length ≤ k → k < 4 → (encodeRecord i).bytes[k]? = some 0#8

/-- A few words written out from the table of R43, decoded. -/
def Obligations.SampleTableWordsDecode : Prop :=
  decodeTableWord 32 0b00000000000000000000000111110100 = some (.load 0 500#16) ∧
  decodeTableWord 32 0b00000100000000000000000100000010 = some (.div 0 1 2) ∧
  decodeTableWord 32 0b00000101000000000000000000000000 = some .hlt ∧
  decodeTableWord 32 0b00001111000001000000111100000100 = some (.jmpe 4) ∧
  decodeTableWord 32 0b00001011000000000001111101001101 = some (.gte 0 31 77#8) ∧
  decodeTableWord 32 0b00010001000000110000000000000000 = some (.aloc 3 0#8 0#8) ∧
  decodeTableWord 32 0b11001000000000010000001000000011 = some (.unassigned128to255 72#7)

/-! ### The step, its faults and its outcomes -/

/-- R54: where the bytes of an instruction stand at `pc`, the step is that instruction's effect, run on the state in which
the fetch began (`pc` still at the opcode byte). -/
def Obligations.StepRunsTheInstructionAtPc : Prop :=
  ∀ (s : State) (i : Instr), instrAtPc i s → step s = exec i s

/-- R98 items 1 and 2 (with R49, R51): the first field in offset order that is missing or is a bad register decides the
fault, whatever comes after it. The order is D11, the spec's own decision. -/
def Obligations.FirstBadFieldDecidesTheFault : Prop :=
  ∀ s : State,
    (s.prog.read s.pc.toNat = none → step s = .fault (.malformedStream s.pc.toNat)) ∧
    ∀ b, s.prog.read s.pc.toNat = some b →
      ∀ k, k < (Opcode.ofByte b).fields.length →
        (∀ j, j < k → ∃ v, s.prog.read (s.pc.toNat + 1 + j) = some v ∧
          ((Opcode.ofByte b).fields[j]? = some .reg → v.toNat < 32)) →
        (s.prog.read (s.pc.toNat + 1 + k) = none →
          step s = .fault (.malformedStream (s.pc.toNat + 1 + k))) ∧
        (∀ v, s.prog.read (s.pc.toNat + 1 + k) = some v → (Opcode.ofByte b).fields[k]? = some .reg → 32 ≤ v.toNat →
          step s = .fault (.invalidRegisterIndex v))

/-- R98 item 3, R92, R93: where the opcode byte and every field are there and every register field is below 32, no stream
or index fault is raised, so only then can an arithmetic or heap fault be. -/
def Obligations.GoodFieldsRaiseNoStreamOrIndexFault : Prop :=
  ∀ (s : State) (b : Byte),
    s.prog.read s.pc.toNat = some b →
    (∀ j, j < (Opcode.ofByte b).fields.length → ∃ v, s.prog.read (s.pc.toNat + 1 + j) = some v ∧
      ((Opcode.ofByte b).fields[j]? = some .reg → v.toNat < 32)) →
    (∀ a, step s ≠ .fault (.malformedStream a)) ∧ (∀ v, step s ≠ .fault (.invalidRegisterIndex v))

/-- R92 (a), R56: a step with `pc` at or beyond the end of the buffer raises MalformedStream with that offset. -/
def Obligations.FetchBeyondTheBufferFaults : Prop :=
  ∀ s : State, s.prog.wf → s.prog.size ≤ s.pc.toNat → step s = .fault (.malformedStream s.pc.toNat)

/-- Every instruction has a meaning: no step is refused (R53: all opcodes are implemented). -/
def Obligations.NoStepIsRefused : Prop := ∀ (s : State) (r : Refusal), step s ≠ .refused r

/-- R55: what a completed step reports, latched in the last-outcome status (D13; that the latch is built is the model's
choice, log entry 1): HLT and ILLEGAL halt with their
own causes, every other instruction continues. -/
def Obligations.CompletedStepReportsItsOutcome : Prop :=
  ∀ (s t : State) (i : Instr) (n : Nat),
    fetchInstr s = .ok i n → step s = .next t →
    (i.opcode = .hlt → t.lastOutcome = some (.halted .hlt)) ∧
    (i.opcode = .illegal → t.lastOutcome = some (.halted .illegal)) ∧
    (i.opcode ≠ .hlt → i.opcode ≠ .illegal → t.lastOutcome = some .continued)

/-- R97, R61: a run-once that faults leaves every piece of state as it was (the last-outcome status then holds the fault,
log entry 2), and running again without changing anything raises the same fault again. That a fault changes nothing is
D10, the spec's own decision. -/
def Obligations.FaultIsPreciseAndRepeats : Prop :=
  ∀ (s t : State) (k : Fault),
    runOnce s = .ok (.faulted k, t) →
    step s = .fault k ∧ t = { s with lastOutcome := some (.faulted k) } ∧ runOnce t = .ok (.faulted k, t)

/-- R20: the last-outcome status is written by every step and read by none (here: read by none). That it is built is the
model's choice (log entry 1). -/
def Obligations.LastOutcomeIsReadByNoStep : Prop :=
  ∀ (s : State) (o : Option StepOutcome), step { s with lastOutcome := o } = step s

/-- R12: in a valid state a step without a taken jump (a JMPE with the flag false included) advances `pc` by the consumed
length without wrapping, and leaves it at most at the end of the buffer. The 32 bits of `pc` are D2, the spec's own decision (log entry 14). -/
def Obligations.SequentialAdvanceNeverWraps : Prop :=
  ∀ (s t : State) (i : Instr) (n : Nat),
    s.Valid → fetchInstr s = .ok i n → i.opcode ≠ .jmp → i.opcode ≠ .jmpf → i.opcode ≠ .jmpb →
    (i.opcode = .jmpe → s.eqf = false) → step s = .next t →
    t.pc.toNat = s.pc.toNat + (encode i).length ∧ t.pc.toNat ≤ s.prog.size

/-! ### Reset and invariants -/

/-- R21: construction, with any parameters, gives every piece of state the value of the table; State.reset is construction
with the defaults of R7. That the parameters are a field which construction sets is log entry 3; that there is a
last-outcome status is log entry 1. Both are the model's choice. -/
def Obligations.ConstructGivesTheResetValues : Prop :=
  (∀ p : Params,
    (∀ r : Reg, readReg r (construct p) = 0#32) ∧ (construct p).pc = 0#32 ∧ (construct p).prog.size = 0 ∧
    (∀ a : Nat, (construct p).prog.read a = none) ∧ (construct p).heapLen = 0#32 ∧ (construct p).rem = 0#32 ∧
    (construct p).eqf = false ∧ (construct p).lastOutcome = none ∧ (construct p).params = p) ∧
  State.reset = construct Params.default ∧
  State.reset.params.progMax = 2 ^ 32 - 1 ∧ State.reset.params.heapMax = 2 ^ 32 - 1 ∧
  State.reset.params.overflowPolicy = .wrap

/-- The state after construction with legal parameters is a valid state of R22. -/
def Obligations.ConstructedStateIsValid : Prop := ∀ p : Params, p.wf → (construct p).Valid

/-- R13, R14, R22: every step keeps a valid state valid (canonical program buffer within PROG_MAX, heap within HEAP_MAX,
legal parameters). -/
def Obligations.EveryStepKeepsValidity : Prop := ∀ s t : State, s.Valid → step s = .next t → t.Valid

/-- R63: every host operation, a run of any length included, keeps a valid state valid, and none changes the
parameters. That construct keeps the parameters is log entry 3 and that a preload out of range changes nothing is log
entry 12, both the model's choice. -/
def Obligations.EveryHostOperationKeepsValidity : Prop :=
  ∀ (fuel : Nat) (op : HostOp) (s t : State) (reply : Reply),
    s.Valid → perform fuel op s = some (reply, t) → t.Valid ∧ t.params = s.params

/-- R27: no instruction writes memory: after any completed step every byte of the program buffer reads as before, and so
does every heap byte that both states have. -/
def Obligations.NoStepWritesMemory : Prop :=
  ∀ s t : State, step s = .next t →
    sameProgram s t ∧ t.prog = s.prog ∧
      ∀ a v w, heapByte s a = some v → heapByte t a = some w → w = v

/-! ### Results -/

/-- R67: LOAD zero-extends its immediate into the register, at every immediate, and changes nothing else but `pc`. -/
def Obligations.LoadWritesTheZeroExtendedImmediate : Prop :=
  ∀ (r : Reg) (imm : Half) (s : State), ∃ t,
    exec (.load r imm) s = .next t ∧
    (readReg r t).toNat = imm.toNat ∧ signed (readReg r t) = (imm.toNat : Int) ∧
    sameRegsExcept r s t ∧ t.pc = s.pc + 4#32 ∧ t.lastOutcome = some .continued ∧
    t.eqf = s.eqf ∧ t.rem = s.rem ∧ sameHeap s t ∧ sameProgram s t ∧ t.params = s.params

/-- R67 with R24: the four bytes 0, r, B2, B3 at `pc` load B2 * 256 + B3. -/
def Obligations.LoadBytesAreBigEndian : Prop :=
  ∀ (s : State) (r : Reg) (hi lo : Byte),
    s.prog.read s.pc.toNat = some 0#8 → s.prog.read (s.pc.toNat + 1) = some (BitVec.ofNat 8 r.val) →
    s.prog.read (s.pc.toNat + 2) = some hi → s.prog.read (s.pc.toNat + 3) = some lo →
    ∃ t, step s = .next t ∧ (readReg r t).toNat = hi.toNat * 256 + lo.toNat ∧ t.pc = s.pc + 4#32

/-- R70, R68, R69: ADD writes the exact signed sum modulo 2^32, which is the sum itself where it fits. What an
overflowing sum gives is D6, the spec's own decision (log entry 4). -/
def Obligations.AddWritesTheSum : Prop :=
  ∀ (a b d : Reg) (s : State),
    (-2147483648 ≤ signed (readReg a s) + signed (readReg b s) ∧
      signed (readReg a s) + signed (readReg b s) ≤ 2147483647) ∨ s.params.overflowPolicy = .wrap →
    ∃ t, exec (.add a b d) s = .next t ∧
      ((readReg d t).toNat : Int) = (signed (readReg a s) + signed (readReg b s)) % 4294967296 ∧
      (-2147483648 ≤ signed (readReg a s) + signed (readReg b s) →
        signed (readReg a s) + signed (readReg b s) ≤ 2147483647 →
        signed (readReg d t) = signed (readReg a s) + signed (readReg b s)) ∧
      t.pc = s.pc + 4#32 ∧ t.lastOutcome = some .continued

/-- R71, R68, R69: SUB writes the exact signed difference modulo 2^32, the first operand being the minuend. What an
overflowing difference gives is D6, the spec's own decision (log entry 4). -/
def Obligations.SubWritesTheDifference : Prop :=
  ∀ (a b d : Reg) (s : State),
    (-2147483648 ≤ signed (readReg a s) - signed (readReg b s) ∧
      signed (readReg a s) - signed (readReg b s) ≤ 2147483647) ∨ s.params.overflowPolicy = .wrap →
    ∃ t, exec (.sub a b d) s = .next t ∧
      ((readReg d t).toNat : Int) = (signed (readReg a s) - signed (readReg b s)) % 4294967296 ∧
      (-2147483648 ≤ signed (readReg a s) - signed (readReg b s) →
        signed (readReg a s) - signed (readReg b s) ≤ 2147483647 →
        signed (readReg d t) = signed (readReg a s) - signed (readReg b s)) ∧
      t.pc = s.pc + 4#32 ∧ t.lastOutcome = some .continued

/-- R72, R68, R69: MUL writes the low 32 bits of the exact signed product, which is the product itself where it fits. What
an overflowing product gives is D6, the spec's own decision (log entry 4). -/
def Obligations.MulWritesTheProduct : Prop :=
  ∀ (a b d : Reg) (s : State),
    (-2147483648 ≤ signed (readReg a s) * signed (readReg b s) ∧
      signed (readReg a s) * signed (readReg b s) ≤ 2147483647) ∨ s.params.overflowPolicy = .wrap →
    ∃ t, exec (.mul a b d) s = .next t ∧
      ((readReg d t).toNat : Int) = (signed (readReg a s) * signed (readReg b s)) % 4294967296 ∧
      (-2147483648 ≤ signed (readReg a s) * signed (readReg b s) →
        signed (readReg a s) * signed (readReg b s) ≤ 2147483647 →
        signed (readReg d t) = signed (readReg a s) * signed (readReg b s)) ∧
      t.pc = s.pc + 4#32 ∧ t.lastOutcome = some .continued

/-- R73, R74: DIV with a non-zero divisor writes the quotient q rounded toward zero and the remainder r, the pair being
fixed by va = q * vb + r, |r| < |vb|, and r zero or of the dividend's sign. INT_MIN / -1 completes under `wrap` only (D7,
log entry 4); that `rem` holds 32 bits of r is D8 (log entry 15): both are the spec's own decisions. -/
def Obligations.DivWritesQuotientAndRemainder : Prop :=
  ∀ (a b d : Reg) (s : State),
    signed (readReg b s) ≠ 0 →
    ¬ (signed (readReg a s) = -2147483648 ∧ signed (readReg b s) = -1) ∨ s.params.overflowPolicy = .wrap →
    ∃ t q r, exec (.div a b d) s = .next t ∧
      signed (readReg a s) = q * signed (readReg b s) + r ∧
      |r| < |signed (readReg b s)| ∧ (r = 0 ∨ (0 < r ∧ 0 < signed (readReg a s)) ∨ (r < 0 ∧ signed (readReg a s) < 0)) ∧
      ((readReg d t).toNat : Int) = q % 4294967296 ∧ (q ≤ 2147483647 → signed (readReg d t) = q) ∧
      (t.rem.toNat : Int) = r % 4294967296 ∧ signed t.rem = r ∧
      t.pc = s.pc + 4#32 ∧ t.lastOutcome = some .continued

/-- R74's last sentence with R69: of all pairs of 32-bit operands with a non-zero divisor the quotient leaves signed 32
bits for one only, INT_MIN / -1, and the remainder for none. -/
def Obligations.QuotientOverflowsInExactlyOneCase : Prop :=
  ∀ va vb : Word, signed vb ≠ 0 →
    (¬ fitsSigned32 (truncQuotient (signed va) (signed vb)) ↔ (signed va = -2147483648 ∧ signed vb = -1)) ∧
    fitsSigned32 (truncRemainder (signed va) (signed vb))

/-- R69, R96: the overflow fault is raised exactly by ADD, SUB, MUL and DIV, exactly where the exact result leaves signed
32 bits (for DIV: INT_MIN / -1), and only under `OVERFLOW_POLICY` = `fault`. The fault is D6, D7, the spec's own decision. -/
def Obligations.OverflowFaultOnlyUnderFaultPolicy : Prop :=
  ∀ (i : Instr) (s : State),
    exec i s = .fault .arithmeticOverflow ↔
      s.params.overflowPolicy = .fault ∧ ∃ a b d,
        (i = .add a b d ∧ ¬ fitsSigned32 (signed (readReg a s) + signed (readReg b s))) ∨
        (i = .sub a b d ∧ ¬ fitsSigned32 (signed (readReg a s) - signed (readReg b s))) ∨
        (i = .mul a b d ∧ ¬ fitsSigned32 (signed (readReg a s) * signed (readReg b s))) ∨
        (i = .div a b d ∧ signed (readReg a s) = -2147483648 ∧ signed (readReg b s) = -1)

/-- R94: DivideByZero is raised by DIV alone, exactly when the divisor register is zero, after all three register fields
were fetched and checked (the decode has succeeded); the dividend does not matter. Said of `exec` and of `step`. -/
def Obligations.DivideByZeroExactlyOnZeroDivisor : Prop :=
  (∀ (i : Instr) (s : State),
    exec i s = .fault .divideByZero ↔ ∃ a b d, i = .div a b d ∧ signed (readReg b s) = 0) ∧
  (∀ s : State,
    step s = .fault .divideByZero ↔
      ∃ a b d n, fetchInstr s = .ok (.div a b d) n ∧ signed (readReg b s) = 0)

/-- R75: HLT consumes its opcode byte, reports Halt(HLT), and changes nothing but `pc`. -/
def Obligations.HltHaltsAfterOneByte : Prop :=
  ∀ s : State, ∃ t,
    exec .hlt s = .next t ∧ t.pc = s.pc + 1#32 ∧ t.lastOutcome = some (.halted .hlt) ∧
    sameRegs s t ∧ t.eqf = s.eqf ∧ t.rem = s.rem ∧ sameHeap s t ∧ sameProgram s t ∧ t.params = s.params

/-- R76, R77, R99: ILLEGAL and every unassigned opcode byte consume the opcode byte, report Halt(ILLEGAL), and change
nothing but `pc`. -/
def Obligations.IllegalAndUnassignedHaltAfterOneByte : Prop :=
  ∀ (i : Instr) (s : State),
    (i = .illegal ∨ (∃ o, i = .unassigned18to19 o) ∨ (∃ o, i = .unassigned20to23 o) ∨ (∃ o, i = .unassigned24to31 o) ∨
      (∃ o, i = .unassigned32to63 o) ∨ (∃ o, i = .unassigned64to127 o) ∨ (∃ o, i = .unassigned128to255 o)) →
    ∃ t, exec i s = .next t ∧ t.pc = s.pc + 1#32 ∧ t.lastOutcome = some (.halted .illegal) ∧
      sameRegs s t ∧ t.eqf = s.eqf ∧ t.rem = s.rem ∧ sameHeap s t ∧ sameProgram s t ∧ t.params = s.params

/-- R79, R80, R81, R78: the three unconditional jumps at every register value, read without a sign: absolute, and relative
to the jump's own offset plus 2, modulo 2^32. The unsigned reading is D3, the modulus D2 and D4, the spec's own decisions
(log entry 14). -/
def Obligations.UnconditionalJumpsSetPc : Prop :=
  ∀ (r : Reg) (s : State),
    (∃ t, exec (.jmp r) s = .next t ∧ t.pc.toNat = (readReg r s).toNat ∧ t.lastOutcome = some .continued) ∧
    (∃ t, exec (.jmpf r) s = .next t ∧ t.pc.toNat = (s.pc.toNat + 2 + (readReg r s).toNat) % 4294967296 ∧
      t.lastOutcome = some .continued) ∧
    (∃ t, exec (.jmpb r) s = .next t ∧
      (t.pc.toNat : Int) = ((s.pc.toNat : Int) + 2 - ((readReg r s).toNat : Int)) % 4294967296 ∧
      t.lastOutcome = some .continued)

/-- R82: JMPE goes to the register's value if `eqf` is true and to its own offset plus 2 (not 4) if it is false; the flag
keeps its value. That a negative register is read without a sign is D3, the spec's own decision (log entry 14). -/
def Obligations.JmpeFollowsTheFlag : Prop :=
  ∀ (r : Reg) (s : State), ∃ t,
    exec (.jmpe r) s = .next t ∧
    (s.eqf = true → t.pc = readReg r s) ∧ (s.eqf = false → t.pc = s.pc + 2#32) ∧
    t.eqf = s.eqf ∧ t.lastOutcome = some .continued

/-- R84, R85: EQ and NEQ set and clear `eqf` by equality of the 32-bit patterns, whatever the padding byte holds. -/
def Obligations.EqualityComparisonsSetTheFlag : Prop :=
  ∀ (a b : Reg) (p : Byte) (s : State),
    (∃ t, exec (.eq a b p) s = .next t ∧ (t.eqf = true ↔ readReg a s = readReg b s) ∧ t.pc = s.pc + 4#32 ∧
      t.lastOutcome = some .continued) ∧
    (∃ t, exec (.neq a b p) s = .next t ∧ (t.eqf = true ↔ readReg a s ≠ readReg b s) ∧ t.pc = s.pc + 4#32 ∧
      t.lastOutcome = some .continued)

/-- R86 to R89, R83: GTE, LTE, GT, LT set and clear `eqf` by the signed order, the first operand on the left, whatever
the padding byte holds. The signed order is D17, the spec's own decision (log entry 16). -/
def Obligations.OrderComparisonsSetTheFlag : Prop :=
  ∀ (a b : Reg) (p : Byte) (s : State),
    (∃ t, exec (.gte a b p) s = .next t ∧ (t.eqf = true ↔ (readReg b s).sle (readReg a s) = true) ∧
      t.pc = s.pc + 4#32 ∧ t.lastOutcome = some .continued) ∧
    (∃ t, exec (.lte a b p) s = .next t ∧ (t.eqf = true ↔ (readReg a s).sle (readReg b s) = true) ∧
      t.pc = s.pc + 4#32 ∧ t.lastOutcome = some .continued) ∧
    (∃ t, exec (.gt a b p) s = .next t ∧ (t.eqf = true ↔ (readReg b s).slt (readReg a s) = true) ∧
      t.pc = s.pc + 4#32 ∧ t.lastOutcome = some .continued) ∧
    (∃ t, exec (.lt a b p) s = .next t ∧ (t.eqf = true ↔ (readReg a s).slt (readReg b s) = true) ∧
      t.pc = s.pc + 4#32 ∧ t.lastOutcome = some .continued)

/-- R90, R35, R15: an ALOC whose new length lies in 0 to HEAP_MAX makes that the heap's length; every heap byte below it
is zero and there is none at or beyond it. HEAP_MAX is at most 2^32 - 1 (R7). The bounds are D9, the spec's own decision. -/
def Obligations.AlocResizesTheHeap : Prop :=
  ∀ (r : Reg) (p q : Byte) (s : State),
    s.params.heapMax ≤ 4294967295 →
    0 ≤ (s.heapLen.toNat : Int) + signed (readReg r s) →
    (s.heapLen.toNat : Int) + signed (readReg r s) ≤ s.params.heapMax →
    ∃ t, exec (.aloc r p q) s = .next t ∧
      (t.heapLen.toNat : Int) = (s.heapLen.toNat : Int) + signed (readReg r s) ∧
      (∀ x, x < t.heapLen.toNat → heapByte t x = some 0#8) ∧ (∀ x, t.heapLen.toNat ≤ x → heapByte t x = none) ∧
      t.pc = s.pc + 4#32 ∧ t.lastOutcome = some .continued

/-- R95: HeapRange is raised by ALOC alone, exactly when the new length is negative or exceeds HEAP_MAX. The fault is D9,
the spec's own decision. -/
def Obligations.HeapRangeExactlyOutOfBounds : Prop :=
  ∀ (i : Instr) (s : State),
    exec i s = .fault .heapRange ↔ ∃ r p q, i = .aloc r p q ∧
      ((s.heapLen.toNat : Int) + signed (readReg r s) < 0 ∨
        (s.params.heapMax : Int) < (s.heapLen.toNat : Int) + signed (readReg r s))

/-! ### Frames -/

/-- R10, R27, R67, R68, R73: what LOAD and the four arithmetic instructions leave unchanged when they complete: every register but the
destination, the flag, the heap, all of the program buffer, the parameters, and, but for DIV, `rem`. -/
def Obligations.RegisterWritersFrame : Prop :=
  ∀ (i : Instr) (d : Reg) (s t : State),
    ((∃ imm, i = .load d imm) ∨ (∃ a b, i = .add a b d) ∨ (∃ a b, i = .sub a b d) ∨ (∃ a b, i = .mul a b d) ∨
      (∃ a b, i = .div a b d)) →
    exec i s = .next t →
    sameRegsExcept d s t ∧ t.eqf = s.eqf ∧ ((∀ a b, i ≠ .div a b d) → t.rem = s.rem) ∧ sameHeap s t ∧
      sameProgram s t ∧ t.params = s.params

/-- R83: what the six comparisons leave unchanged: every register, `rem`, the heap, all of the program buffer, the
parameters. -/
def Obligations.ComparisonFrame : Prop :=
  ∀ (i : Instr) (s t : State),
    (∃ a b p, i = .eq a b p ∨ i = .neq a b p ∨ i = .gte a b p ∨ i = .lte a b p ∨ i = .gt a b p ∨ i = .lt a b p) →
    exec i s = .next t →
    sameRegs s t ∧ t.rem = s.rem ∧ sameHeap s t ∧ sameProgram s t ∧ t.params = s.params

/-- R79 to R82: the four jumps only ever change `pc`. -/
def Obligations.JumpFrame : Prop :=
  ∀ (i : Instr) (s t : State),
    (∃ r, i = .jmp r ∨ i = .jmpf r ∨ i = .jmpb r ∨ i = .jmpe r) →
    exec i s = .next t →
    sameRegs s t ∧ t.eqf = s.eqf ∧ t.rem = s.rem ∧ sameHeap s t ∧ sameProgram s t ∧ t.params = s.params

/-- R90: ALOC changes `heap_len` and `pc` alone. -/
def Obligations.AlocFrame : Prop :=
  ∀ (r : Reg) (p q : Byte) (s t : State),
    exec (.aloc r p q) s = .next t →
    sameRegs s t ∧ t.eqf = s.eqf ∧ t.rem = s.rem ∧ sameProgram s t ∧ t.params = s.params

/-! ### Whole-machine rules -/

/-- R17, R16, R14, R10: a step that changes the flag ran a comparison, one that changes `rem` ran DIV, one that changes
the heap's length ran ALOC, and one that changes a register ran LOAD, ADD, SUB, MUL or DIV. -/
def Obligations.EachStateElementHasItsOnlyWriters : Prop :=
  ∀ (s t : State) (i : Instr) (n : Nat),
    fetchInstr s = .ok i n → step s = .next t →
    (t.eqf ≠ s.eqf → i.opcode = .eq ∨ i.opcode = .neq ∨ i.opcode = .gte ∨ i.opcode = .lte ∨ i.opcode = .gt ∨
      i.opcode = .lt) ∧
    (t.rem ≠ s.rem → i.opcode = .div) ∧
    (t.heapLen ≠ s.heapLen → i.opcode = .aloc) ∧
    (¬ sameRegs s t → i.opcode = .load ∨ i.opcode = .add ∨ i.opcode = .sub ∨ i.opcode = .mul ∨ i.opcode = .div)

/-- R17: JMPE alone reads the flag: for every other instruction the flag's value before the step changes nothing but, at
most, the flag's value after it; for a comparison, whose result overwrites the flag, not even that; and an instruction that
is no comparison hands the flag on as it was. -/
def Obligations.OnlyJmpeReadsTheFlag : Prop :=
  ∀ (s : State) (f : Bool) (i : Instr) (n : Nat),
    fetchInstr s = .ok i n → i.opcode ≠ .jmpe →
    sameButEqf (step s) (step (setEqf f s)) ∧
    (i.opcode = .eq ∨ i.opcode = .neq ∨ i.opcode = .gte ∨ i.opcode = .lte ∨ i.opcode = .gt ∨ i.opcode = .lt →
      step (setEqf f s) = step s) ∧
    (i.opcode ≠ .eq → i.opcode ≠ .neq → i.opcode ≠ .gte → i.opcode ≠ .lte → i.opcode ≠ .gt → i.opcode ≠ .lt →
      ∀ u, step (setEqf f s) = .next u → u.eqf = f)

/-- R16 and R14: no instruction reads `rem`, ALOC included, and none but ALOC reads the heap's length. Changing `rem`
before a step changes neither whether and how it completes or faults nor any other piece of state after it; `rem` itself
is then what DIV writes, or the changed value. The same for the heap's length and every instruction but ALOC, and a fault
other than ALOC's HeapRange does not depend on the heap's length either. -/
def Obligations.RemainderAndHeapLengthAreNotOperands : Prop :=
  (∀ (s t : State) (v : Word) (i : Instr) (n : Nat),
    fetchInstr s = .ok i n → step s = .next t →
    ∃ u, step { s with rem := v } = .next u ∧
      sameRegs t u ∧ u.pc = t.pc ∧ u.eqf = t.eqf ∧ u.heapLen = t.heapLen ∧ u.lastOutcome = t.lastOutcome ∧
      u.prog = t.prog ∧ u.params = t.params ∧
      (i.opcode = .div → u.rem = t.rem) ∧ (i.opcode ≠ .div → u.rem = v)) ∧
  (∀ (s : State) (v : Word) (k : Fault), step s = .fault k → step { s with rem := v } = .fault k) ∧
  (∀ (s t : State) (w : Word) (i : Instr) (n : Nat),
    fetchInstr s = .ok i n → i.opcode ≠ .aloc → step s = .next t →
    step { s with heapLen := w } = .next { t with heapLen := w }) ∧
  (∀ (s : State) (w : Word) (k : Fault), k ≠ .heapRange → step s = .fault k → step { s with heapLen := w } = .fault k)

/-- R109 (a), R82: the record `15, r, 15, r` keeps a not-taken JMPE in step: two steps arrive at the next record with
nothing else changed; with the flag true the first step jumps. That a negative register is read without a sign is D3, the
spec's own decision (log entry 14). -/
def Obligations.DoubledJmpeKeepsInStep : Prop :=
  ∀ (s : State) (r : Reg),
    s.Valid →
    s.prog.read s.pc.toNat = some 15#8 → s.prog.read (s.pc.toNat + 1) = some (BitVec.ofNat 8 r.val) →
    s.prog.read (s.pc.toNat + 2) = some 15#8 → s.prog.read (s.pc.toNat + 3) = some (BitVec.ofNat 8 r.val) →
    (s.eqf = true → step s = .next { s with pc := readReg r s, lastOutcome := some .continued }) ∧
    (s.eqf = false → ∃ t, step s = .next t ∧
      step t = .next { s with pc := s.pc + 4#32, lastOutcome := some .continued })

/-- R109: with zero padding a not-taken JMPE falls into its own record: the next step loads register 0 from the first two
bytes of the following record. -/
def Obligations.NotTakenJmpeFallsIntoItsPadding : Prop :=
  ∀ (s : State) (r : Reg) (c0 c1 : Byte),
    s.Valid → s.eqf = false →
    s.prog.read s.pc.toNat = some 15#8 → s.prog.read (s.pc.toNat + 1) = some (BitVec.ofNat 8 r.val) →
    s.prog.read (s.pc.toNat + 2) = some 0#8 → s.prog.read (s.pc.toNat + 3) = some 0#8 →
    s.prog.read (s.pc.toNat + 4) = some c0 → s.prog.read (s.pc.toNat + 5) = some c1 →
    ∃ t u, step s = .next t ∧ step t = .next u ∧
      (readReg 0 u).toNat = c0.toNat * 256 + c1.toNat ∧ sameRegsExcept 0 s u ∧ u.pc = s.pc + 6#32

/-! ### The host's operations -/

/-- R59, R34: append puts the four bytes at the end, in order, whatever they are, and changes nothing else; it refuses, and
changes nothing, if the buffer would exceed PROG_MAX (the refusal is D5, the spec's own decision). -/
def Obligations.AppendAddsTheRecordOrRefuses : Prop :=
  ∀ (r : Record) (s : State), s.prog.wf →
    (s.params.progMax < s.prog.size + 4 → append r s = (.appendRefused, s)) ∧
    (s.prog.size + 4 ≤ s.params.progMax → ∃ m, append r s = (.appendOk, { s with prog := m }) ∧
      m.size = s.prog.size + 4 ∧ (∀ a, a < s.prog.size → m.read a = s.prog.read a) ∧
      m.read s.prog.size = some r.b0 ∧ m.read (s.prog.size + 1) = some r.b1 ∧
      m.read (s.prog.size + 2) = some r.b2 ∧ m.read (s.prog.size + 3) = some r.b3)

/-- R108: from construction, one append of the encoder's record for any instruction, and the next step is that
instruction's effect at offset 0. -/
def Obligations.BootRunsTheFirstAppendedRecord : Prop :=
  ∀ (p : Params) (i : Instr), p.wf →
    ∃ t, append (encodeRecord i) (construct p) = (.appendOk, t) ∧ t.pc = 0#32 ∧ step t = exec i t

/-- R65, R64: every preload within the ranges of R65 is accepted, and no other; an accepted one puts its value into its
item, which inspection then reads, and every other item, every other general register among them, reads as before. Preload
is D19, the spec's own decision; that a preload out of range is rejected is the model's choice, log entry 12. -/
def Obligations.PreloadWritesItsItemAlone : Prop :=
  (∀ s : State,
    (∀ r v, ∃ t, preload (.reg r v) s = some t) ∧ (∀ v, ∃ t, preload (.pc v) s = some t) ∧
    (∀ b, ∃ t, preload (.eqf b) s = some t) ∧ (∀ v, ∃ t, preload (.rem v) s = some t) ∧
    (∀ v, (∃ t, preload (.heapLen v) s = some t) ↔ v.toNat ≤ s.params.heapMax) ∧
    (∀ bs, (∃ t, preload (.prog bs) s = some t) ↔ bs.length ≤ s.params.progMax)) ∧
  ∀ (s t : State),
    (∀ r v, preload (.reg r v) s = some t →
      inspect (.reg r) t = .word v ∧ ∀ i, i ≠ .reg r → inspect i t = inspect i s) ∧
    (∀ v, preload (.pc v) s = some t → inspect .pc t = .word v ∧ ∀ i, i ≠ .pc → inspect i t = inspect i s) ∧
    (∀ b, preload (.eqf b) s = some t → inspect .eqf t = .flag b ∧ ∀ i, i ≠ .eqf → inspect i t = inspect i s) ∧
    (∀ v, preload (.rem v) s = some t → inspect .rem t = .word v ∧ ∀ i, i ≠ .rem → inspect i t = inspect i s) ∧
    (∀ v, preload (.heapLen v) s = some t →
      inspect .heapLen t = .word v ∧ ∀ i, i ≠ .heapLen → inspect i t = inspect i s) ∧
    (∀ bs, preload (.prog bs) s = some t →
      inspect .progLength t = .length bs.length ∧ (∀ a, inspect (.progByte a) t = .byte bs[a]?) ∧
      ∀ i, i ≠ .progLength → (∀ a, i ≠ .progByte a) → inspect i t = inspect i s)

/-- R57, D15: a run with a budget returns, and needs no more steps than the budget. -/
def Obligations.RunWithBudgetReturns : Prop :=
  ∀ (b : Nat) (s : State), ∃ r t, run b (some b) s = some (r, t)

/-- R57, R58: how a run ends: end of buffer only with `pc` at or beyond the end, the step limit only within the buffer
and with a budget, a halt or a fault as the last step reported it; a fault would be raised again. The order of the tests
is D14, D15, the spec's own decisions (log entry 17). -/
def Obligations.RunEndsAsItReports : Prop :=
  ∀ (fuel : Nat) (budget : Option Nat) (s t : State) (r : RunResult),
    run fuel budget s = some (r, t) →
    (r = .endOfBuffer → t.prog.size ≤ t.pc.toNat) ∧
    (r = .stepLimit → t.pc.toNat < t.prog.size ∧ budget ≠ none) ∧
    (∀ c, r = .halted c → t.lastOutcome = some (.halted c)) ∧
    (∀ k, r = .faulted k → step t = .fault k) ∧
    (∀ k, r ≠ .refused k)

/-- R113: more fuel does not change what a run returns, so the fuel is no part of the machine. -/
def Obligations.RunResultDoesNotDependOnFuel : Prop :=
  ∀ (fuel more : Nat) (budget : Option Nat) (s : State) (x : RunResult × State),
    run fuel budget s = some x → run (fuel + more) budget s = some x

/-! ### The dispatch FSM -/

/-- R62 against R54: from IDLE with a run-once command the FSM is back in IDLE after at most 8 visits (and stays), with the
state and the outcome of run-once. The phases are D1, the spec's own decision; the details are log entry 13. -/
def Obligations.FsmRefinesRunOnce : Prop :=
  ∀ (s t : State) (o : StepOutcome),
    runOnce s = .ok (o, t) →
    ((Fsm.start .runOnce s).ticks 8).phase = .idle ∧ ((Fsm.start .runOnce s).ticks 8).command = none ∧
    ((Fsm.start .runOnce s).ticks 8).engine = t ∧ ((Fsm.start .runOnce s).ticks 8).report = some (.stepped o) ∧
    ((Fsm.start .runOnce s).ticks 8).acceptsHost = true

/-- R62 against R57: from IDLE with a run command the FSM comes back to IDLE with the result and the state of the run
loop. The phases are D1, the spec's own decision; the details are log entry 13. -/
def Obligations.FsmRefinesRun : Prop :=
  ∀ (fuel : Nat) (budget : Option Nat) (s t : State) (r : RunResult),
    run fuel budget s = some (r, t) →
    ∃ n, ((Fsm.start (.run budget) s).ticks n).phase = .idle ∧ ((Fsm.start (.run budget) s).ticks n).command = none ∧
      ((Fsm.start (.run budget) s).ticks n).engine = t ∧ ((Fsm.start (.run budget) s).ticks n).report = some (.ran r)

/-- R62: no architectural write happens before EXECUTE: a visit of any other phase leaves the architectural state as it
was; FAULT writes the last-outcome status alone (log entry 13). -/
def Obligations.FsmWritesOnlyInExecute : Prop :=
  ∀ f : Fsm, f.phase ≠ .execute →
    ((∀ k, f.phase ≠ .fault k) → f.tick.engine = f.engine) ∧
    (∀ k, f.phase = .fault k → f.tick.engine = { f.engine with lastOutcome := some (.faulted k) })

/-- R62 and R63: the FSM takes a host operation in IDLE with no command waiting and nowhere else. Elsewhere it rejects it and
visits its phase as if it had not been asked. In IDLE it serves every operation with the reply and the state of that
operation, and comes back to IDLE ready for the next. The phases are D1, the spec's own decision; the details are log
entry 13. -/
def Obligations.FsmServesTheHostInIdleAlone : Prop :=
  (∀ (f : Fsm) (op : HostOp),
    ¬ (f.phase = .idle ∧ f.command = none) → f.host op = none ∧ f.transition (some op) = f.transition none) ∧
  (∀ (f : Fsm) (op : HostOp) (fuel : Nat) (reply : Reply) (t : State),
    f.phase = .idle → f.command = none → perform fuel op f.engine = some (reply, t) →
    ∃ n, ((f.transition (some op)).ticks n).phase = .idle ∧ ((f.transition (some op)).ticks n).command = none ∧
      ((f.transition (some op)).ticks n).engine = t ∧ ((f.transition (some op)).ticks n).report = some reply)

/-! ### Where an instruction completes, and where a decode faults -/

/-- R54, R55 with the faults of R94 to R96: an instruction completes exactly where none of its own faults is due. LOAD, HLT,
ILLEGAL and the unassigned bytes, the four jumps and the six comparisons complete in every state with every operand; ADD,
SUB and MUL where the exact result fits or the policy is `wrap`; DIV with a non-zero divisor, and under the fault policy
not on INT_MIN / -1; ALOC where the new length lies in 0 to HEAP_MAX. The overflow and heap conditions are D6, D7 and D9,
the spec's own decisions (log entry 4). -/
def Obligations.ExecCompletesExactlyWhereNoFaultIsDue : Prop :=
  ∀ (i : Instr) (s : State),
    (∃ t, exec i s = .next t) ↔
      match i with
      | .load _ _ | .hlt | .jmp _ | .jmpf _ | .jmpb _ | .jmpe _ | .eq _ _ _ | .neq _ _ _ | .gte _ _ _ | .lte _ _ _
      | .gt _ _ _ | .lt _ _ _ | .illegal | .unassigned18to19 _ | .unassigned20to23 _ | .unassigned24to31 _
      | .unassigned32to63 _ | .unassigned64to127 _ | .unassigned128to255 _ => True
      | .add a b _ =>
        fitsSigned32 (signed (readReg a s) + signed (readReg b s)) ∨ s.params.overflowPolicy = .wrap
      | .sub a b _ =>
        fitsSigned32 (signed (readReg a s) - signed (readReg b s)) ∨ s.params.overflowPolicy = .wrap
      | .mul a b _ =>
        fitsSigned32 (signed (readReg a s) * signed (readReg b s)) ∨ s.params.overflowPolicy = .wrap
      | .div a b _ =>
        signed (readReg b s) ≠ 0 ∧
          (¬ (signed (readReg a s) = -2147483648 ∧ signed (readReg b s) = -1) ∨ s.params.overflowPolicy = .wrap)
      | .aloc r _ _ =>
        0 ≤ (s.heapLen.toNat : Int) + signed (readReg r s) ∧
          (s.heapLen.toNat : Int) + signed (readReg r s) ≤ s.params.heapMax

/-- R93: InvalidRegisterIndex is raised by a byte of 32 or more in a register field and by nothing else (so never by a
padding or immediate byte), and where the bytes of an instruction are all there, a bad byte in any of its register fields
raises it, the destination's included and a JMPE's whatever the flag. -/
def Obligations.InvalidRegisterIndexExactlyForBadRegisterFields : Prop :=
  (∀ (s : State) (v : Byte),
    step s = .fault (.invalidRegisterIndex v) →
    32 ≤ v.toNat ∧ ∃ b j, s.prog.read s.pc.toNat = some b ∧ (Opcode.ofByte b).fields[j]? = some .reg ∧
      s.prog.read (s.pc.toNat + 1 + j) = some v) ∧
  (∀ (s : State) (b v : Byte) (j : Nat),
    s.prog.read s.pc.toNat = some b →
    (∀ k, k < (Opcode.ofByte b).fields.length → s.prog.read (s.pc.toNat + 1 + k) ≠ none) →
    (Opcode.ofByte b).fields[j]? = some .reg → s.prog.read (s.pc.toNat + 1 + j) = some v → 32 ≤ v.toNat →
    ∃ w, step s = .fault (.invalidRegisterIndex w))

/-- R92: MalformedStream is raised only where a byte that the instruction fetches lies beyond the buffer, never for
padding it does not consume; a missing opcode byte raises it (a), and so does an operand or consumed padding byte beyond
the end, where no register field in the buffer is bad (b). A run avoids (a), since the state in which it reports
MalformedStream has `pc` inside the buffer, but not (b), which it reports. -/
def Obligations.MalformedStreamExactlyForMissingBytes : Prop :=
  (∀ (s : State) (a : Nat), s.prog.wf → step s = .fault (.malformedStream a) →
    s.prog.size ≤ s.pc.toNat ∨ ∃ b j, s.prog.read s.pc.toNat = some b ∧ j < (Opcode.ofByte b).fields.length ∧
      s.prog.size ≤ s.pc.toNat + 1 + j) ∧
  (∀ s : State, s.prog.wf → s.prog.size ≤ s.pc.toNat → ∃ a, step s = .fault (.malformedStream a)) ∧
  (∀ (s : State) (b : Byte), s.prog.wf → s.prog.read s.pc.toNat = some b →
    s.prog.size < s.pc.toNat + 1 + (Opcode.ofByte b).fields.length →
    (∀ j v, (Opcode.ofByte b).fields[j]? = some .reg → s.prog.read (s.pc.toNat + 1 + j) = some v → v.toNat < 32) →
    ∃ a t, step s = .fault (.malformedStream a) ∧ run 1 none s = some (.faulted (.malformedStream a), t)) ∧
  (∀ (fuel : Nat) (budget : Option Nat) (s t : State) (a : Nat),
    run fuel budget s = some (.faulted (.malformedStream a), t) → t.pc.toNat < t.prog.size)
end

