-- ==== Sys2Proof/Laws/Decode.lean ====
section
/-! SUPPORT. The laws of the decode primitives: what each fetch needs to succeed, and what a field holds. -/

namespace Sys2Proof

@[simp] theorem Fetched.andThen_ok {α β : Type} (v : α) (n : Nat) (k : α → Nat → Fetched β) :
    (Fetched.ok v n).andThen k = k v n := rfl

@[simp] theorem Fetched.andThen_error {α β : Type} (e : DecodeError) (k : α → Nat → Fetched β) :
    (Fetched.error e).andThen k = .error e := rfl

/-- A fetch and its continuation succeed only if both do. -/
theorem Fetched.andThen_eq_ok {α β : Type} {f : Fetched α} {k : α → Nat → Fetched β} {w : β} {n : Nat} :
    f.andThen k = .ok w n ↔ ∃ v m, f = .ok v m ∧ k v m = .ok w n := by
  cases f with
  | ok v m => simp
  | error e => simp

theorem fetchByte_of_some {rd : ByteSource} {p : Nat} {b : Byte} (h : rd p = some b) : fetchByte rd p = .ok b (p + 1) := by
  simp [fetchByte, h]

theorem fetchByte_of_none {rd : ByteSource} {p : Nat} (h : rd p = none) :
    fetchByte rd p = .error (.malformedStream p) := by
  simp [fetchByte, h]

theorem fetchByte_eq_ok {rd : ByteSource} {p n : Nat} {b : Byte} :
    fetchByte rd p = .ok b n ↔ rd p = some b ∧ n = p + 1 := by
  unfold fetchByte
  cases rd p with
  | none => simp
  | some c => simp [eq_comm]

/-- The whole byte is the index (R40). -/
theorem regOfByte_eq_some {b : Byte} {r : Reg} : regOfByte b = some r ↔ r.val = b.toNat := by
  unfold regOfByte
  split
  · next h => simp [Fin.ext_iff, eq_comm]
  · next h =>
    have := r.isLt
    simp
    omega

theorem regOfByte_eq_none {b : Byte} : regOfByte b = none ↔ 32 ≤ b.toNat := by
  unfold regOfByte
  split <;> simp <;> omega

@[simp] theorem toNat_regByte (r : Reg) : (regByte r).toNat = r.val := by
  have := r.isLt
  simp [regByte]
  omega

@[simp] theorem regOfByte_regByte (r : Reg) : regOfByte (regByte r) = some r := by simp [regOfByte_eq_some]

theorem eq_regByte_iff {b : Byte} {r : Reg} : regOfByte b = some r ↔ b = regByte r := by
  rw [regOfByte_eq_some]
  constructor
  · intro h
    apply BitVec.eq_of_toNat_eq
    simp [h]
  · rintro rfl
    simp

theorem fetchReg_eq_ok {rd : ByteSource} {p n : Nat} {r : Reg} :
    fetchReg rd p = .ok r n ↔ rd p = some (regByte r) ∧ n = p + 1 := by
  unfold fetchReg
  rw [Fetched.andThen_eq_ok]
  constructor
  · rintro ⟨b, m, hb, hr⟩
    obtain ⟨hb', rfl⟩ := fetchByte_eq_ok.1 hb
    cases hc : regOfByte b with
    | none => simp [hc] at hr
    | some q =>
      simp [hc] at hr
      obtain ⟨rfl, rfl⟩ := hr
      exact ⟨by rw [hb', eq_regByte_iff.1 hc], rfl⟩
  · rintro ⟨hb, rfl⟩
    exact ⟨regByte r, p + 1, fetchByte_of_some hb, by simp⟩

/-- The immediate as a number (R24). -/
theorem toNat_bigEndian (hi lo : Byte) : (bigEndian hi lo).toNat = hi.toNat * 256 + lo.toNat := by
  have := lo.isLt
  simp only [bigEndian, BitVec.toNat_append]
  rw [Nat.shiftLeft_eq, Nat.mul_comm, ← Nat.two_pow_add_eq_or_of_lt (by simpa using this)]

theorem toNat_highByte (h : Half) : (highByte h).toNat = h.toNat / 256 := by
  have := h.isLt
  simp [highByte, BitVec.extractLsb'_toNat, Nat.shiftRight_eq_div_pow]
  omega

theorem toNat_lowByte (h : Half) : (lowByte h).toNat = h.toNat % 256 := by
  simp [lowByte, BitVec.extractLsb'_toNat]

@[simp] theorem bigEndian_high_low (h : Half) : bigEndian (highByte h) (lowByte h) = h := by
  apply BitVec.eq_of_toNat_eq
  rw [toNat_bigEndian, toNat_highByte, toNat_lowByte]
  omega

@[simp] theorem highByte_bigEndian (hi lo : Byte) : highByte (bigEndian hi lo) = hi := by
  apply BitVec.eq_of_toNat_eq
  have := lo.isLt
  rw [toNat_highByte, toNat_bigEndian]
  omega

@[simp] theorem lowByte_bigEndian (hi lo : Byte) : lowByte (bigEndian hi lo) = lo := by
  apply BitVec.eq_of_toNat_eq
  have := lo.isLt
  rw [toNat_lowByte, toNat_bigEndian]
  omega

theorem fetchHalf_eq_ok {rd : ByteSource} {p n : Nat} {h : Half} :
    fetchHalf rd p = .ok h n ↔ rd p = some (highByte h) ∧ rd (p + 1) = some (lowByte h) ∧ n = p + 2 := by
  unfold fetchHalf
  simp only [Fetched.andThen_eq_ok, fetchByte_eq_ok]
  constructor
  · rintro ⟨hi, m, ⟨h1, rfl⟩, lo, k, ⟨h2, rfl⟩, h3⟩
    simp at h3
    obtain ⟨rfl, rfl⟩ := h3
    simp [h1, h2]
  · rintro ⟨h1, h2, rfl⟩
    exact ⟨_, _, ⟨h1, rfl⟩, _, _, ⟨h2, rfl⟩, by simp⟩

/-- A byte above 17 is no opcode of the table (R45). -/
theorem ofByte_of_large {b : Byte} (h : 18 ≤ b.toNat) : Opcode.ofByte b = .illegal := by
  have hl : opcodeTable.length = 18 := rfl
  simp [Opcode.ofByte, List.getElem?_eq_none (show opcodeTable.length ≤ b.toNat by omega)]

end Sys2Proof
end

