-- ==== Sys2Proof/Laws/Fsm.lean ====
section
/-! SUPPORT. What the host's side of the dispatch FSM does (R62): when an operation is taken, and what taking, serving and
finishing one leave of the FSM. -/

namespace Sys2Proof.Machine

/-- The FSM takes host operations exactly in IDLE with no command waiting. -/
theorem Fsm.acceptsHost_iff {f : Fsm} : f.acceptsHost = true ↔ f.phase = .idle ∧ f.command = none := by
  simp [Fsm.acceptsHost]

/-- Everything that offering an operation can give: it is served, in IDLE, or rejected. -/
theorem Fsm.host_cases (op : HostOp) (f : Fsm) :
    ((f.phase = .idle ∧ f.command = none) ∧ f.host op = some (f.idleServe op)) ∨
    (¬ (f.phase = .idle ∧ f.command = none) ∧ f.host op = none) := by
  rw [← Fsm.acceptsHost_iff]
  by_cases h : f.acceptsHost = true
  · exact .inl ⟨h, by simp [Fsm.host, h]⟩
  · exact .inr ⟨h, by simp [Fsm.host, h]⟩

@[simp] theorem Fsm.ready_phase (s : State) : (Fsm.ready s).phase = .idle := rfl
@[simp] theorem Fsm.ready_command (s : State) : (Fsm.ready s).command = none := rfl
@[simp] theorem Fsm.ready_engine (s : State) : (Fsm.ready s).engine = s := rfl

@[simp] theorem Fsm.take_phase (c : Command) (f : Fsm) : (f.take c).phase = f.phase := rfl
@[simp] theorem Fsm.take_command (c : Command) (f : Fsm) : (f.take c).command = some c := rfl
@[simp] theorem Fsm.take_engine (c : Command) (f : Fsm) : (f.take c).engine = f.engine := rfl
@[simp] theorem Fsm.take_count (c : Command) (f : Fsm) : (f.take c).count = 0 := rfl
@[simp] theorem Fsm.take_report (c : Command) (f : Fsm) : (f.take c).report = none := rfl

@[simp] theorem Fsm.served_phase (x : Reply × State) (f : Fsm) : (f.served x).phase = f.phase := rfl
@[simp] theorem Fsm.served_command (x : Reply × State) (f : Fsm) : (f.served x).command = f.command := rfl
@[simp] theorem Fsm.served_engine (x : Reply × State) (f : Fsm) : (f.served x).engine = x.2 := rfl
@[simp] theorem Fsm.served_report (x : Reply × State) (f : Fsm) : (f.served x).report = some x.1 := rfl

@[simp] theorem Fsm.finish_phase (r : Reply) (f : Fsm) : (f.finish r).phase = .idle := rfl
@[simp] theorem Fsm.finish_command (r : Reply) (f : Fsm) : (f.finish r).command = none := rfl
@[simp] theorem Fsm.finish_engine (r : Reply) (f : Fsm) : (f.finish r).engine = f.engine := rfl
@[simp] theorem Fsm.finish_report (r : Reply) (f : Fsm) : (f.finish r).report = some r := rfl

/-- A started command is one taken by the FSM at rest. -/
theorem Fsm.start_eq_take (c : Command) (s : State) : Fsm.start c s = (Fsm.ready s).take c := by
  cases c <;> rfl

/-- Ticks add up. -/
theorem Fsm.ticks_add (m n : Nat) (f : Fsm) : f.ticks (m + n) = (f.ticks m).ticks n := by
  induction m generalizing f with
  | zero => simp [Fsm.ticks]
  | succ m ih => rw [Nat.succ_add]; exact ih f.tick

end Sys2Proof.Machine
end

