-- ==== Sys2Proof/Laws/Memory.lean ====
section
/-! SUPPORT. The laws of the program buffer: a canonical buffer reads like the list of its bytes, every operation keeps the
canonical form, and append leaves what was there. -/

namespace Sys2Proof.Machine

@[simp] theorem length_cellsFrom (bs : List Byte) (n : Nat) : (cellsFrom n bs).length = bs.length := by
  induction bs generalizing n with
  | nil => rfl
  | cons b bs ih => simp [cellsFrom, ih]

@[simp] theorem map_snd_cellsFrom (bs : List Byte) (n : Nat) : (cellsFrom n bs).map Prod.snd = bs := by
  induction bs generalizing n with
  | nil => rfl
  | cons b bs ih => simp [cellsFrom, ih]

theorem cellsFrom_append (as bs : List Byte) (n : Nat) :
    cellsFrom n (as ++ bs) = cellsFrom n as ++ cellsFrom (n + as.length) bs := by
  induction as generalizing n with
  | nil => rfl
  | cons a as ih => simp [cellsFrom, ih, Nat.add_assoc, Nat.add_comm 1]

/-- No cell lies below the first offset. -/
theorem lookup_cellsFrom_below (bs : List Byte) {n a : Nat} (h : a < n) : lookupCell (cellsFrom n bs) a = none := by
  induction bs generalizing n with
  | nil => rfl
  | cons b bs ih =>
    have hne : n ≠ a := by omega
    simp [cellsFrom, lookupCell, hne, ih (show a < n + 1 by omega)]

theorem lookup_cellsFrom (bs : List Byte) (n k : Nat) : lookupCell (cellsFrom n bs) (n + k) = bs[k]? := by
  induction bs generalizing n k with
  | nil => rfl
  | cons b bs ih =>
    cases k with
    | zero => simp [cellsFrom, lookupCell]
    | succ k =>
      have hne : n ≠ n + (k + 1) := by omega
      have hadd : n + (k + 1) = n + 1 + k := by omega
      simp only [cellsFrom, lookupCell, hne, if_false, List.getElem?_cons_succ]
      rw [hadd]
      exact ih (n + 1) k

/-- The offsets of a canonical buffer rise strictly. -/
theorem cellsFrom_rising (bs : List Byte) (n : Nat) :
    (cellsFrom n bs).Pairwise (fun c d => c.1 < d.1) ∧ ∀ c ∈ cellsFrom n bs, n ≤ c.1 := by
  induction bs generalizing n with
  | nil => simp [cellsFrom]
  | cons b bs ih =>
    obtain ⟨hp, hb⟩ := ih (n + 1)
    refine ⟨List.pairwise_cons.2 ⟨fun d hd => ?_, hp⟩, fun c hc => ?_⟩
    · have := hb d hd
      simp only
      omega
    · rcases List.mem_cons.1 hc with rfl | hc
      · exact Nat.le_refl n
      · have := hb c hc
        omega

theorem Memory.wf_rising {m : Memory} (h : m.wf) : m.cells.Pairwise (fun c d => c.1 < d.1) := by
  have h : m.cells = cellsFrom 0 m.bytes := h
  rw [h]
  exact (cellsFrom_rising _ 0).1

@[simp] theorem Memory.bytes_ofBytes (bs : List Byte) : (Memory.ofBytes bs).bytes = bs := map_snd_cellsFrom bs 0

@[simp] theorem Memory.size_ofBytes (bs : List Byte) : (Memory.ofBytes bs).size = bs.length := length_cellsFrom bs 0

@[simp] theorem Memory.read_ofBytes (bs : List Byte) (a : Nat) : (Memory.ofBytes bs).read a = bs[a]? := by
  have := lookup_cellsFrom bs 0 a
  rwa [Nat.zero_add] at this

@[simp] theorem Memory.length_bytes (m : Memory) : m.bytes.length = m.size := by simp [Memory.bytes, Memory.size]

/-- A canonical buffer is the buffer of its bytes. -/
theorem Memory.wf_iff (m : Memory) : m.wf ↔ m = Memory.ofBytes m.bytes := by
  constructor
  · intro h
    cases m with
    | mk cells =>
      have h : cells = cellsFrom 0 (Memory.mk cells).bytes := h
      simp only [Memory.ofBytes, Memory.mk.injEq]
      exact h
  · intro h
    exact congrArg Memory.cells h

theorem Memory.wf_ofBytes (bs : List Byte) : (Memory.ofBytes bs).wf := by
  simp [Memory.wf_iff]

/-- A canonical buffer reads like the list of its bytes. -/
theorem Memory.read_of_wf {m : Memory} (h : m.wf) (a : Nat) : m.read a = m.bytes[a]? := by
  conv => lhs; rw [(Memory.wf_iff m).1 h]
  exact Memory.read_ofBytes _ a

/-- At or beyond the length there is no byte (R26). -/
theorem Memory.read_eq_none_iff {m : Memory} (h : m.wf) (a : Nat) : m.read a = none ↔ m.size ≤ a := by
  rw [Memory.read_of_wf h, List.getElem?_eq_none_iff, Memory.length_bytes]

theorem Memory.lt_size_of_read {m : Memory} (h : m.wf) {a : Nat} {b : Byte} (hr : m.read a = some b) : a < m.size := by
  by_contra hge
  rw [(Memory.read_eq_none_iff h a).2 (by omega)] at hr
  cases hr

/-- Appending to a canonical buffer appends to its bytes. -/
theorem Memory.append_eq_ofBytes {m : Memory} (h : m.wf) (bs : List Byte) :
    m.append bs = Memory.ofBytes (m.bytes ++ bs) := by
  have h : m.cells = cellsFrom 0 m.bytes := h
  simp only [Memory.append, Memory.ofBytes, cellsFrom_append, Memory.length_bytes, Nat.zero_add, ← h]

theorem Memory.wf_append {m : Memory} (h : m.wf) (bs : List Byte) : (m.append bs).wf := by
  rw [Memory.append_eq_ofBytes h]
  exact Memory.wf_ofBytes _

@[simp] theorem Memory.size_append (m : Memory) (bs : List Byte) : (m.append bs).size = m.size + bs.length := by
  simp [Memory.append, Memory.size]

/-- Bytes already in the buffer never change (R34). -/
theorem Memory.read_append_old {m : Memory} (h : m.wf) (bs : List Byte) {a : Nat} (ha : a < m.size) :
    (m.append bs).read a = m.read a := by
  rw [Memory.append_eq_ofBytes h, Memory.read_ofBytes, Memory.read_of_wf h,
    List.getElem?_append_left (by simpa using ha)]

/-- The appended bytes start at the old length (R59). -/
theorem Memory.read_append_new {m : Memory} (h : m.wf) (bs : List Byte) (k : Nat) :
    (m.append bs).read (m.size + k) = bs[k]? := by
  rw [Memory.append_eq_ofBytes h, Memory.read_ofBytes, List.getElem?_append_right (by simp)]
  simp

theorem Memory.wf_placeAt (m : Memory) (a : Nat) (bs : List Byte) : (m.placeAt a bs).wf := Memory.wf_ofBytes _

/-- The placed bytes read from their offset on. -/
theorem Memory.read_placeAt (m : Memory) (a : Nat) (bs : List Byte) {k : Nat} (hk : k < bs.length) :
    (m.placeAt a bs).read (a + k) = bs[k]? := by
  have hlen : ((m.bytes ++ List.replicate (a - m.size) 0#8).take a).length = a := by
    simp
    omega
  simp only [Memory.placeAt, Memory.read_ofBytes, List.append_assoc]
  rw [List.getElem?_append_right (by omega), hlen, List.getElem?_append_left (by omega)]
  congr 1
  omega

/-- The buffer is canonical after reset. -/
theorem reset_prog_wf : State.reset.prog.wf := rfl

end Sys2Proof.Machine
end

