-- ==== Sys2Proof/Laws/State.lean ====
section
/-! SUPPORT. One lemma per field per state update: what each update of Machine/Ops.lean writes and what it leaves. -/

namespace Sys2Proof.Machine

@[simp] theorem writeReg_pc (r : Reg) (v : Word) (s : State) : (writeReg r v s).pc = s.pc := rfl
@[simp] theorem writeReg_prog (r : Reg) (v : Word) (s : State) : (writeReg r v s).prog = s.prog := rfl
@[simp] theorem writeReg_heapLen (r : Reg) (v : Word) (s : State) : (writeReg r v s).heapLen = s.heapLen := rfl
@[simp] theorem writeReg_rem (r : Reg) (v : Word) (s : State) : (writeReg r v s).rem = s.rem := rfl
@[simp] theorem writeReg_eqf (r : Reg) (v : Word) (s : State) : (writeReg r v s).eqf = s.eqf := rfl
@[simp] theorem writeReg_lastOutcome (r : Reg) (v : Word) (s : State) : (writeReg r v s).lastOutcome = s.lastOutcome := rfl
@[simp] theorem writeReg_params (r : Reg) (v : Word) (s : State) : (writeReg r v s).params = s.params := rfl

@[simp] theorem setPc_pc (t : Word) (s : State) : (setPc t s).pc = t := rfl
@[simp] theorem setPc_prog (t : Word) (s : State) : (setPc t s).prog = s.prog := rfl
@[simp] theorem setPc_heapLen (t : Word) (s : State) : (setPc t s).heapLen = s.heapLen := rfl
@[simp] theorem setPc_rem (t : Word) (s : State) : (setPc t s).rem = s.rem := rfl
@[simp] theorem setPc_eqf (t : Word) (s : State) : (setPc t s).eqf = s.eqf := rfl
@[simp] theorem setPc_lastOutcome (t : Word) (s : State) : (setPc t s).lastOutcome = s.lastOutcome := rfl
@[simp] theorem setPc_params (t : Word) (s : State) : (setPc t s).params = s.params := rfl
@[simp] theorem readReg_setPc (q : Reg) (t : Word) (s : State) : readReg q (setPc t s) = readReg q s := rfl

@[simp] theorem setRem_pc (v : Word) (s : State) : (setRem v s).pc = s.pc := rfl
@[simp] theorem setRem_prog (v : Word) (s : State) : (setRem v s).prog = s.prog := rfl
@[simp] theorem setRem_heapLen (v : Word) (s : State) : (setRem v s).heapLen = s.heapLen := rfl
@[simp] theorem setRem_rem (v : Word) (s : State) : (setRem v s).rem = v := rfl
@[simp] theorem setRem_eqf (v : Word) (s : State) : (setRem v s).eqf = s.eqf := rfl
@[simp] theorem setRem_lastOutcome (v : Word) (s : State) : (setRem v s).lastOutcome = s.lastOutcome := rfl
@[simp] theorem setRem_params (v : Word) (s : State) : (setRem v s).params = s.params := rfl
@[simp] theorem readReg_setRem (q : Reg) (v : Word) (s : State) : readReg q (setRem v s) = readReg q s := rfl

@[simp] theorem setEqf_pc (b : Bool) (s : State) : (setEqf b s).pc = s.pc := rfl
@[simp] theorem setEqf_prog (b : Bool) (s : State) : (setEqf b s).prog = s.prog := rfl
@[simp] theorem setEqf_heapLen (b : Bool) (s : State) : (setEqf b s).heapLen = s.heapLen := rfl
@[simp] theorem setEqf_rem (b : Bool) (s : State) : (setEqf b s).rem = s.rem := rfl
@[simp] theorem setEqf_eqf (b : Bool) (s : State) : (setEqf b s).eqf = b := rfl
@[simp] theorem setEqf_lastOutcome (b : Bool) (s : State) : (setEqf b s).lastOutcome = s.lastOutcome := rfl
@[simp] theorem setEqf_params (b : Bool) (s : State) : (setEqf b s).params = s.params := rfl
@[simp] theorem readReg_setEqf (q : Reg) (b : Bool) (s : State) : readReg q (setEqf b s) = readReg q s := rfl

@[simp] theorem heapResize_pc (n : Int) (s : State) : (heapResize n s).pc = s.pc := rfl
@[simp] theorem heapResize_prog (n : Int) (s : State) : (heapResize n s).prog = s.prog := rfl
@[simp] theorem heapResize_heapLen (n : Int) (s : State) : (heapResize n s).heapLen = wrap32 n := rfl
@[simp] theorem heapResize_rem (n : Int) (s : State) : (heapResize n s).rem = s.rem := rfl
@[simp] theorem heapResize_eqf (n : Int) (s : State) : (heapResize n s).eqf = s.eqf := rfl
@[simp] theorem heapResize_lastOutcome (n : Int) (s : State) : (heapResize n s).lastOutcome = s.lastOutcome := rfl
@[simp] theorem heapResize_params (n : Int) (s : State) : (heapResize n s).params = s.params := rfl
@[simp] theorem readReg_heapResize (q : Reg) (n : Int) (s : State) : readReg q (heapResize n s) = readReg q s := rfl

@[simp] theorem latch_pc (o : StepOutcome) (s : State) : (latch o s).pc = s.pc := rfl
@[simp] theorem latch_prog (o : StepOutcome) (s : State) : (latch o s).prog = s.prog := rfl
@[simp] theorem latch_heapLen (o : StepOutcome) (s : State) : (latch o s).heapLen = s.heapLen := rfl
@[simp] theorem latch_rem (o : StepOutcome) (s : State) : (latch o s).rem = s.rem := rfl
@[simp] theorem latch_eqf (o : StepOutcome) (s : State) : (latch o s).eqf = s.eqf := rfl
@[simp] theorem latch_lastOutcome (o : StepOutcome) (s : State) : (latch o s).lastOutcome = some o := rfl
@[simp] theorem latch_params (o : StepOutcome) (s : State) : (latch o s).params = s.params := rfl
@[simp] theorem readReg_latch (q : Reg) (o : StepOutcome) (s : State) : readReg q (latch o s) = readReg q s := rfl

/-- The register just written reads as the value written. -/
@[simp] theorem readReg_writeReg_same (r : Reg) (v : Word) (s : State) : readReg r (writeReg r v s) = v := by
  simp [readReg, writeReg]

/-- Every other register reads as before. -/
theorem readReg_writeReg_other {q r : Reg} (h : q ≠ r) (v : Word) (s : State) :
    readReg q (writeReg r v s) = readReg q s := by
  have hv : (r : Nat) ≠ (q : Nat) := fun e => h (Fin.ext e.symm)
  simp [readReg, writeReg, Vector.getElem_set_ne, hv]

/-- Heap bytes depend on the heap's length alone. -/
theorem heapByte_congr {s t : State} (h : t.heapLen = s.heapLen) (a : Nat) : heapByte t a = heapByte s a := by
  simp [heapByte, h]

/-- Every register is zero after construction (R21). -/
@[simp] theorem readReg_construct (q : Reg) (p : Params) : readReg q (construct p) = 0#32 := by
  simp [readReg, construct]

end Sys2Proof.Machine
end

