-- ==== Sys2Proof/Laws/Ops.lean ====
section
/-! SUPPORT. One lemma per shared operation that says all it can do, for the proofs to cite instead of unfolding it. -/

namespace Sys2Proof.Machine

/-- Everything a step that goes on at `t` does. -/
theorem continueAt_eq_next {t : Word} {s u : State} :
    continueAt t s = .next u ↔ u = latch .continued (setPc t s) := by
  simp [continueAt, eq_comm]

theorem continueAfter_eq_next {n : Nat} {s u : State} :
    continueAfter n s = .next u ↔ u = latch .continued (setPc (npc n s) s) := continueAt_eq_next

theorem haltStep_eq_next {c : HaltCause} {s u : State} :
    haltStep c s = .next u ↔ u = latch (.halted c) (setPc (npc 1 s) s) := by
  simp [haltStep, eq_comm]

/-- A raised fault answers no next state (R97). -/
theorem raiseFault_ne_next {k : Fault} {s u : State} : raiseFault k s ≠ .next u := by simp [raiseFault]

/-- `wrap32` takes the residue modulo 2^32 (00_scope.md section 4.1). -/
theorem toNat_wrap32 (z : Int) : ((wrap32 z).toNat : Int) = z % 4294967296 := by
  have h := Int.emod_nonneg z (show (4294967296 : Int) ≠ 0 by decide)
  simp [wrap32, BitVec.toNat_ofInt]
  omega

/-- Where the exact value fits, its word reads back as it (R69). -/
theorem signed_wrap32 {z : Int} (h : fitsSigned32 z) : signed (wrap32 z) = z := by
  obtain ⟨h1, h2⟩ := h
  simp only [signed, wrap32, BitVec.toInt_ofInt]
  rw [Int.bmod_eq_of_le] <;> omega

/-- The overflow law (R69): nothing only under the fault policy and out of range. -/
theorem overflow32_eq_some {p : OverflowPolicy} {z : Int} {v : Word} :
    overflow32 p z = some v ↔ v = wrap32 z ∧ (fitsSigned32 z ∨ p = .wrap) := by
  unfold overflow32
  rw [and_comm, eq_comm]
  cases p <;> by_cases h : fitsSigned32 z <;> simp [h]

theorem overflow32_eq_none {p : OverflowPolicy} {z : Int} :
    overflow32 p z = none ↔ ¬ fitsSigned32 z ∧ p = .fault := by
  unfold overflow32
  cases p <;> by_cases h : fitsSigned32 z <;> simp [h]

/-- Everything the arithmetic skeleton can answer (R68): the write and the advance, or the overflow fault. -/
theorem writeExact_cases (z : Int) (d : Reg) (s : State) :
    ((fitsSigned32 z ∨ s.params.overflowPolicy = .wrap) ∧
      writeExact z d s = .next (latch .continued (setPc (npc 4 s) (writeReg d (wrap32 z) s)))) ∨
    (¬ fitsSigned32 z ∧ s.params.overflowPolicy = .fault ∧ writeExact z d s = .fault .arithmeticOverflow) := by
  unfold writeExact
  cases h : overflow32 s.params.overflowPolicy z with
  | some v =>
    obtain ⟨rfl, hz⟩ := overflow32_eq_some.1 h
    exact .inl ⟨hz, rfl⟩
  | none =>
    obtain ⟨hz, hp⟩ := overflow32_eq_none.1 h
    exact .inr ⟨hz, hp, rfl⟩

theorem writeExact_next {z : Int} {d : Reg} {s : State} (h : fitsSigned32 z ∨ s.params.overflowPolicy = .wrap) :
    writeExact z d s = .next (latch .continued (setPc (npc 4 s) (writeReg d (wrap32 z) s))) := by
  obtain ⟨-, h'⟩ | ⟨hz, hp, -⟩ := writeExact_cases z d s
  · exact h'
  · simp [hz, hp] at h

/-- Everything a comparison does (R83). -/
theorem compareWith_eq (rel : Int → Int → Bool) (a b : Reg) (s : State) :
    compareWith rel a b s =
      .next (latch .continued (setPc (npc 4 s) (setEqf (rel (signedOperand a s) (signedOperand b s)) s))) := rfl

/-- The step at a state whose decode succeeds is the meaning of the instruction (R54). -/
theorem step_of_fetch {s : State} {i : Instr} {n : Nat} (h : fetchInstr s = .ok i n) : step s = exec i s := by
  simp [step, h]

/-- The step at a state whose decode fails raises the decode's first error (R98). -/
theorem step_of_error {s : State} {e : DecodeError} (h : fetchInstr s = .error e) :
    step s = .fault (faultOfDecode e) := by
  simp [step, h, raiseFault]

/-- A step that answers a next state fetched an instruction. -/
theorem fetch_of_step_next {s t : State} (h : step s = .next t) : ∃ i n, fetchInstr s = .ok i n ∧ exec i s = .next t := by
  unfold step at h
  split at h
  · next i n hf => exact ⟨i, n, hf, h⟩
  · exact absurd h raiseFault_ne_next

/-- A requested heap length within HEAP_MAX becomes the heap's length. -/
theorem toNat_heapLen_heapResize {n : Int} {s : State} (h0 : 0 ≤ n) (h : n ≤ 4294967295) :
    ((heapResize n s).heapLen.toNat : Int) = n := by
  rw [heapResize_heapLen, toNat_wrap32, Int.emod_eq_of_lt h0 (by omega)]

/-- Everything DIV can answer (R73): the zero divisor's fault, or the arithmetic skeleton on the quotient. -/
theorem execDiv_cases (a b d : Reg) (s : State) :
    (signedOperand b s = 0 ∧ execDiv a b d s = .fault .divideByZero) ∨
    (signedOperand b s ≠ 0 ∧ execDiv a b d s =
      writeExact (truncQuotient (signedOperand a s) (signedOperand b s)) d
        (setRem (wrap32 (truncRemainder (signedOperand a s) (signedOperand b s))) s)) := by
  by_cases h : signedOperand b s = 0
  · exact .inl ⟨h, by simp [execDiv, h, raiseFault]⟩
  · exact .inr ⟨h, by simp [execDiv, h]⟩

/-- Everything ALOC can answer (R90): the range fault, or the resize and the advance. -/
theorem execAloc_cases (r : Reg) (s : State) :
    ((requestedLength r s < 0 ∨ (s.params.heapMax : Int) < requestedLength r s) ∧ execAloc r s = .fault .heapRange) ∨
    ((0 ≤ requestedLength r s ∧ requestedLength r s ≤ s.params.heapMax) ∧
      execAloc r s = .next (latch .continued (setPc (npc 4 s) (heapResize (requestedLength r s) s)))) := by
  by_cases h : requestedLength r s < 0 ∨ (s.params.heapMax : Int) < requestedLength r s
  · exact .inl ⟨h, by simp only [execAloc, if_pos h, raiseFault]⟩
  · refine .inr ⟨by omega, ?_⟩
    simp only [execAloc, if_neg h]
    rfl

/-- Everything JMPE can answer (R82). -/
theorem execJmpe_eq (r : Reg) (s : State) :
    execJmpe r s = .next (latch .continued (setPc (if s.eqf then readReg r s else npc 2 s) s)) := by
  cases h : s.eqf <;> simp [execJmpe, h, continueAfter, continueAt, targetOperand]

/-- Append answers one of two things (R59). -/
theorem append_cases (r : Record) (s : State) :
    (s.params.progMax < s.prog.size + 4 ∧ append r s = (.appendRefused, s)) ∨
    (s.prog.size + 4 ≤ s.params.progMax ∧ append r s = (.appendOk, { s with prog := s.prog.append r.bytes })) := by
  by_cases h : s.params.progMax < s.prog.size + 4
  · exact .inl ⟨h, by simp [append, recordLength, h]⟩
  · exact .inr ⟨by omega, by simp [append, recordLength, h]⟩

/-- What run-once answers after each outcome of the step (R55, R56). -/
theorem runOnce_of_next {s t : State} (h : step s = .next t) : runOnce s = .ok (t.lastOutcome.getD .continued, t) := by
  simp [runOnce, h]

theorem runOnce_of_fault {s : State} {k : Fault} (h : step s = .fault k) :
    runOnce s = .ok (.faulted k, latch (.faulted k) s) := by
  simp [runOnce, h]

end Sys2Proof.Machine
end

