-- ==== Sys2Proof/Laws/PerInstr.lean ====
section
/-! SUPPORT. The family EncodeShape: for each instruction, how many bytes it consumes, and that its first byte maps back to
its opcode (R37, R39, R43). -/

namespace Sys2Proof.Laws.EncodeShape

/-- An instruction's bytes are as many as its opcode consumes, and the first one maps to that opcode. -/
def Statement (i : Instr) : Prop :=
  (encode i).length = i.opcode.length ∧ ∃ b rest, encode i = b :: rest ∧ Opcode.ofByte b = i.opcode

theorem load (r : Reg) (imm : Half) : Statement (.load r imm) := ⟨rfl, _, _, rfl, rfl⟩
theorem add (a b d : Reg) : Statement (.add a b d) := ⟨rfl, _, _, rfl, rfl⟩
theorem sub (a b d : Reg) : Statement (.sub a b d) := ⟨rfl, _, _, rfl, rfl⟩
theorem mul (a b d : Reg) : Statement (.mul a b d) := ⟨rfl, _, _, rfl, rfl⟩
theorem div (a b d : Reg) : Statement (.div a b d) := ⟨rfl, _, _, rfl, rfl⟩
theorem hlt : Statement .hlt := ⟨rfl, _, _, rfl, rfl⟩
theorem jmp (r : Reg) : Statement (.jmp r) := ⟨rfl, _, _, rfl, rfl⟩
theorem jmpf (r : Reg) : Statement (.jmpf r) := ⟨rfl, _, _, rfl, rfl⟩
theorem jmpb (r : Reg) : Statement (.jmpb r) := ⟨rfl, _, _, rfl, rfl⟩
theorem eq (a b : Reg) (p : Byte) : Statement (.eq a b p) := ⟨rfl, _, _, rfl, rfl⟩
theorem neq (a b : Reg) (p : Byte) : Statement (.neq a b p) := ⟨rfl, _, _, rfl, rfl⟩
theorem gte (a b : Reg) (p : Byte) : Statement (.gte a b p) := ⟨rfl, _, _, rfl, rfl⟩
theorem lte (a b : Reg) (p : Byte) : Statement (.lte a b p) := ⟨rfl, _, _, rfl, rfl⟩
theorem gt (a b : Reg) (p : Byte) : Statement (.gt a b p) := ⟨rfl, _, _, rfl, rfl⟩
theorem lt (a b : Reg) (p : Byte) : Statement (.lt a b p) := ⟨rfl, _, _, rfl, rfl⟩
theorem jmpe (r : Reg) : Statement (.jmpe r) := ⟨rfl, _, _, rfl, rfl⟩
theorem illegal : Statement .illegal := ⟨rfl, _, _, rfl, rfl⟩
theorem aloc (r : Reg) (p q : Byte) : Statement (.aloc r p q) := ⟨rfl, _, _, rfl, rfl⟩

/-- A byte whose fixed high bits make it 18 or more is an unassigned one. -/
theorem of_large {i : Instr} {b : Byte} (he : encode i = [b]) (ho : i.opcode = .illegal) (h : 18 ≤ b.toNat) :
    Statement i :=
  ⟨by rw [he, ho]; rfl, b, [], he, by rw [ho]; exact ofByte_of_large h⟩

/-- The value of a byte made of fixed high bits and free low bits. -/
theorem toNat_high_append {n m : Nat} (h : BitVec n) (o : BitVec m) : h.toNat * 2 ^ m ≤ (h ++ o).toNat := by
  rw [BitVec.toNat_append, Nat.shiftLeft_eq]
  exact Nat.left_le_or

theorem unassigned18to19 (o : BitVec 1) : Statement (.unassigned18to19 o) :=
  of_large rfl rfl (toNat_high_append 0b0001001#7 o)
theorem unassigned20to23 (o : BitVec 2) : Statement (.unassigned20to23 o) :=
  of_large rfl rfl (Nat.le_trans (by decide) (toNat_high_append 0b000101#6 o))
theorem unassigned24to31 (o : BitVec 3) : Statement (.unassigned24to31 o) :=
  of_large rfl rfl (Nat.le_trans (by decide) (toNat_high_append 0b00011#5 o))
theorem unassigned32to63 (o : BitVec 5) : Statement (.unassigned32to63 o) :=
  of_large rfl rfl (Nat.le_trans (by decide) (toNat_high_append 0b001#3 o))
theorem unassigned64to127 (o : BitVec 6) : Statement (.unassigned64to127 o) :=
  of_large rfl rfl (Nat.le_trans (by decide) (toNat_high_append 0b01#2 o))
theorem unassigned128to255 (o : BitVec 7) : Statement (.unassigned128to255 o) :=
  of_large rfl rfl (Nat.le_trans (by decide) (toNat_high_append 0b1#1 o))

end Sys2Proof.Laws.EncodeShape
end

