-- ==== Sys2Proof/Tests/Slice0.lean ====
section
/-! SUPPORT. The model's own tests. Every expected result is written out from the spec: the encodings of R38 and R43, the
source's scenarios S1 to S6 and the derived vectors of 95_test_vectors.md (named by their ids), and the tables of R74 and
R83. At the end, for each statement with hypotheses, a state and operands that meet them. -/

namespace Sys2Proof.Tests
open Sys2Proof.Machine

/-- Reset with these bytes as the program buffer. -/
def prog (bs : List Nat) : State := { State.reset with prog := Memory.ofBytes (bs.map (BitVec.ofNat 8)) }

/-- The answer is a next state with this property. -/
def nextIs (o : Result) (p : State → Bool) : Bool :=
  match o with
  | .next t => p t
  | .fault _ => false
  | .refused _ => false

/-- The answer is this fault. -/
def faultIs (o : Result) (k : Fault) : Bool :=
  match o with
  | .next _ => false
  | .fault r => decide (r = k)
  | .refused _ => false

/-- Registers 0 and 1. -/
def regs01 (v w : Word) (s : State) : State := writeReg 0 v (writeReg 1 w s)

/-- The fault policy of R69. -/
def faultPolicy (s : State) : State := { s with params := { s.params with overflowPolicy := .fault } }

/-! ### Well-formedness: each check refuses an ill-formed term (R48) -/

theorem test_wf_record_good : Record.wellFormed ⟨4#8, 0#8, 31#8, 2#8⟩ = true := by decide
theorem test_wf_record_opcode_refused : Record.wellFormed ⟨18#8, 0#8, 0#8, 0#8⟩ = false := by decide
theorem test_wf_record_first_register_refused : Record.wellFormed ⟨6#8, 32#8, 0#8, 0#8⟩ = false := by decide
theorem test_wf_record_second_register_refused : Record.wellFormed ⟨9#8, 0#8, 32#8, 0#8⟩ = false := by decide
theorem test_wf_record_third_register_refused : Record.wellFormed ⟨1#8, 0#8, 0#8, 255#8⟩ = false := by decide
theorem test_wf_record_padding_free : Record.wellFormed ⟨9#8, 0#8, 1#8, 255#8⟩ = true := by decide
theorem test_wf_instr_unassigned_refused :
    (Instr.unassigned18to19 0#1).wellFormed = false ∧ (Instr.unassigned20to23 0#2).wellFormed = false ∧
    (Instr.unassigned24to31 0#3).wellFormed = false ∧ (Instr.unassigned32to63 0#5).wellFormed = false ∧
    (Instr.unassigned64to127 0#6).wellFormed = false ∧ (Instr.unassigned128to255 0#7).wellFormed = false := by decide

/-! ### Decoding: one word per row, written bit by bit from the patterns of files 41 to 46 -/

theorem test_decode_load : decodeTableWord 32 0b00000000_00000101_10000000_00000001 = some (.load 5 32769#16) := by decide
theorem test_decode_add : decodeTableWord 32 0b00000001_00000001_00000010_00011111 = some (.add 1 2 31) := by decide
theorem test_decode_sub : decodeTableWord 32 0b00000010_00000011_00010000_00000001 = some (.sub 3 16 1) := by decide
theorem test_decode_mul : decodeTableWord 32 0b00000011_00001000_00000100_00000010 = some (.mul 8 4 2) := by decide
theorem test_decode_div : decodeTableWord 32 0b00000100_00000000_00000001_00000010 = some (.div 0 1 2) := by decide
theorem test_decode_hlt : decodeTableWord 32 0b00000101_11111111_11111111_11111111 = some .hlt := by decide
theorem test_decode_jmp : decodeTableWord 32 0b00000110_00010001_11111111_11111111 = some (.jmp 17) := by decide
theorem test_decode_jmpf : decodeTableWord 32 0b00000111_00011110_00000000_00000000 = some (.jmpf 30) := by decide
theorem test_decode_jmpb : decodeTableWord 32 0b00001000_00000100_00000000_00000000 = some (.jmpb 4) := by decide
theorem test_decode_eq : decodeTableWord 32 0b00001001_00000001_00000010_01001101 = some (.eq 1 2 77#8) := by decide
theorem test_decode_neq : decodeTableWord 32 0b00001010_00000010_00000001_00000000 = some (.neq 2 1 0#8) := by decide
theorem test_decode_gte : decodeTableWord 32 0b00001011_00000011_00000100_11111111 = some (.gte 3 4 255#8) := by decide
theorem test_decode_lte : decodeTableWord 32 0b00001100_00000101_00000110_00000000 = some (.lte 5 6 0#8) := by decide
theorem test_decode_gt : decodeTableWord 32 0b00001101_00000111_00001000_00000000 = some (.gt 7 8 0#8) := by decide
theorem test_decode_lt : decodeTableWord 32 0b00001110_00001001_00001010_00000000 = some (.lt 9 10 0#8) := by decide
theorem test_decode_jmpe : decodeTableWord 32 0b00001111_00000100_00001111_00000100 = some (.jmpe 4) := by decide
theorem test_decode_illegal : decodeTableWord 32 0b00010000_00100000_00000000_00000000 = some .illegal := by decide
theorem test_decode_aloc : decodeTableWord 32 0b00010001_00000011_00001001_00001000 = some (.aloc 3 9#8 8#8) := by decide
theorem test_decode_unassigned18to19 :
    decodeTableWord 32 0b00010011_00000000_00000000_00000000 = some (.unassigned18to19 1#1) := by decide
theorem test_decode_unassigned20to23 :
    decodeTableWord 32 0b00010110_00000000_00000000_00000000 = some (.unassigned20to23 2#2) := by decide
theorem test_decode_unassigned24to31 :
    decodeTableWord 32 0b00011101_00000000_00000000_00000000 = some (.unassigned24to31 5#3) := by decide
theorem test_decode_unassigned32to63 :
    decodeTableWord 32 0b00110101_00000000_00000000_00000000 = some (.unassigned32to63 21#5) := by decide
theorem test_decode_unassigned64to127 :
    decodeTableWord 32 0b01100101_00000000_00000000_00000000 = some (.unassigned64to127 37#6) := by decide
theorem test_decode_unassigned128to255 :
    decodeTableWord 32 0b11001000_00000001_00000010_00000011 = some (.unassigned128to255 72#7) := by decide

/-- A register byte of 32 is rejected by name, never masked (R40). -/
theorem test_decode_rejects_register_32 :
    decodeAt (listSource [1#8, 0#8, 32#8, 2#8]) 0 = .error (.invalidRegisterIndex 32#8) := by decide

/-! ### One step per instruction (95_test_vectors.md) -/

/-- S1. -/
theorem test_load : nextIs (step (prog [0, 0, 1, 244])) (fun t => readReg 0 t == 500 && t.pc == 4) = true := by decide
/-- L1: zero-extended, last register. -/
theorem test_load_zero_extends :
    nextIs (step (prog [0, 31, 255, 255])) (fun t => readReg 31 t == 65535#32 && t.pc == 4) = true := by decide
/-- S2. -/
theorem test_add :
    nextIs (step (regs01 1 2 (prog [1, 0, 1, 2]))) (fun t => readReg 2 t == 3 && t.pc == 4) = true := by decide
/-- A3: wraps, one register as both sources and destination. -/
theorem test_add_wraps :
    nextIs (step (regs01 0 1073741824 (prog [1, 1, 1, 1]))) (fun t => readReg 1 t == 0x80000000#32) = true := by decide
/-- B2: the first operand is the minuend. -/
theorem test_sub :
    nextIs (step (regs01 11 4 (prog [2, 1, 0, 2]))) (fun t => readReg 2 t == 0xFFFFFFF9#32) = true := by decide
/-- M3. -/
theorem test_mul_wraps :
    nextIs (step (regs01 46341 46341 (prog [3, 0, 1, 2]))) (fun t => readReg 2 t == 0x80001219#32) = true := by decide
/-- M7. -/
theorem test_mul_overflow_fault :
    faultIs (step (faultPolicy (regs01 0x80000000 0xFFFFFFFF (prog [3, 0, 1, 2])))) .arithmeticOverflow = true := by decide
/-- D5: the remainder has the dividend's sign. -/
theorem test_div_negative :
    nextIs (step (regs01 0xFFFFFFF5 4 (prog [4, 0, 1, 2])))
      (fun t => readReg 2 t == 0xFFFFFFFE#32 && t.rem == 0xFFFFFFFD#32) = true := by decide
/-- D12. -/
theorem test_div_int_min :
    nextIs (step (regs01 0x80000000 0xFFFFFFFF (prog [4, 0, 1, 2])))
      (fun t => readReg 2 t == 0x80000000#32 && t.rem == 0#32) = true := by decide
/-- H2. -/
theorem test_hlt :
    nextIs (step (prog [5, 0, 0, 0])) (fun t => t.pc == 1 && decide (t.lastOutcome = some (.halted .hlt))) = true := by decide
/-- S6, first step. -/
theorem test_jmp : nextIs (step (regs01 3 0 (prog [6, 0, 5, 0, 0, 0, 1]))) (fun t => t.pc == 3) = true := by decide
/-- F4: a "negative" forward distance wraps to a backward jump. -/
theorem test_jmpf :
    nextIs (step (setPc 4 (regs01 0xFFFFFFFA 0 (prog [9, 9, 9, 9, 7, 0, 0, 0])))) (fun t => t.pc == 0) = true := by decide
/-- K3: underflow wraps. -/
theorem test_jmpb : nextIs (step (regs01 3 0 (prog [8, 0, 0, 0]))) (fun t => t.pc == 0xFFFFFFFF#32) = true := by decide
/-- E1. -/
theorem test_jmpe_taken :
    nextIs (step (setEqf true (regs01 0 20 (prog [15, 1, 0, 0])))) (fun t => t.pc == 20 && t.eqf) = true := by decide
/-- E2: 2, not 4. -/
theorem test_jmpe_not_taken : nextIs (step (regs01 0 20 (prog [15, 1, 0, 0]))) (fun t => t.pc == 2) = true := by decide
/-- C1: non-zero padding. -/
theorem test_eq : nextIs (step (regs01 5 5 (prog [9, 0, 1, 77]))) (fun t => t.eqf && t.pc == 4) = true := by decide
/-- C5: a comparison clears as well as sets. -/
theorem test_eq_clears :
    nextIs (step (setEqf true (regs01 1 2 (prog [9, 0, 1, 0])))) (fun t => !t.eqf) = true := by decide
theorem test_neq : nextIs (step (regs01 1 2 (prog [10, 0, 1, 0]))) (fun t => t.eqf) = true := by decide
/-- Signed: -1 >= 1 is false (R86). -/
theorem test_gte_signed :
    nextIs (step (setEqf true (regs01 0xFFFFFFFF 1 (prog [11, 0, 1, 0])))) (fun t => !t.eqf) = true := by decide
theorem test_gte_equal : nextIs (step (regs01 5 5 (prog [11, 0, 1, 0]))) (fun t => t.eqf) = true := by decide
theorem test_lte_false :
    nextIs (step (setEqf true (regs01 6 5 (prog [12, 0, 1, 0])))) (fun t => !t.eqf) = true := by decide
theorem test_lte_signed :
    nextIs (step (regs01 0x80000000 0x7FFFFFFF (prog [12, 0, 1, 0]))) (fun t => t.eqf) = true := by decide
theorem test_gt_signed : nextIs (step (regs01 1 0xFFFFFFFF (prog [13, 0, 1, 0]))) (fun t => t.eqf) = true := by decide
theorem test_gt_equal : nextIs (step (setEqf true (regs01 5 5 (prog [13, 0, 1, 0])))) (fun t => !t.eqf) = true := by decide
theorem test_lt_signed : nextIs (step (regs01 0xFFFFFFFB 3 (prog [14, 0, 1, 0]))) (fun t => t.eqf) = true := by decide
/-- H3. -/
theorem test_illegal :
    nextIs (step (prog [16, 0, 0, 0])) (fun t => t.pc == 1 && decide (t.lastOutcome = some (.halted .illegal))) = true := by
  decide
/-- H4, H5, H6. -/
theorem test_unassigned_bytes_halt :
    ([18, 20, 24, 32, 64, 200, 255].all fun b => nextIs (step (prog [b])) fun t =>
      t.pc == 1 && decide (t.lastOutcome = some (.halted .illegal))) = true := by decide
/-- G2: a negative operand shrinks; padding values ignored. -/
theorem test_aloc_shrinks :
    nextIs (step (heapResize 1024 (regs01 0xFFFFFFE8 0 (prog [17, 0, 9, 9])))) (fun t => t.heapLen == 1000#32 && t.pc == 4) =
      true := by decide
/-- G5. -/
theorem test_aloc_range_fault :
    faultIs (step (heapResize 4294967295 (regs01 1 0 (prog [17, 0, 0, 0])))) .heapRange = true := by decide

/-! ### Fault priority (R98): Q1, Q2, L8, Q5, G9, E3, Q6 -/

theorem test_priority_first_field : faultIs (step (prog [1, 40, 50])) (.invalidRegisterIndex 40#8) = true := by decide
theorem test_priority_second_field : faultIs (step (prog [1, 3, 50])) (.invalidRegisterIndex 50#8) = true := by decide
theorem test_priority_index_before_missing : faultIs (step (prog [0, 32])) (.invalidRegisterIndex 32#8) = true := by decide
theorem test_priority_stream_before_division : faultIs (step (prog [4, 0, 1])) (.malformedStream 3) = true := by decide
theorem test_priority_stream_before_heap :
    faultIs (step (regs01 0xFFFFFFFF 0 (prog [17, 0, 0]))) (.malformedStream 3) = true := by decide
theorem test_jmpe_index_checked_untaken : faultIs (step (prog [15, 32, 0, 0])) (.invalidRegisterIndex 32#8) = true := by
  decide
theorem test_empty_buffer : faultIs (step State.reset) (.malformedStream 0) = true := by decide
/-- D15. -/
theorem test_divide_by_zero : faultIs (step (regs01 5 0 (prog [4, 0, 1, 2]))) .divideByZero = true := by decide

/-! ### The host's operations: W1, W6, W9, W10, W12 -/

theorem test_run_empty : Machine.run 0 none State.reset = some (.endOfBuffer, State.reset) := by decide
theorem test_run_step_limit :
    (Machine.run 5 (some 5) (prog [6, 0, 0, 0])).map Prod.fst = some .stepLimit := by decide
theorem test_run_bound_before_budget : (Machine.run 0 (some 0) State.reset).map Prod.fst = some .endOfBuffer := by decide
theorem test_append_then_step :
    nextIs (step (Machine.append ⟨0#8, 0#8, 1#8, 244#8⟩ State.reset).2) (fun t => readReg 0 t == 500 && t.prog.size == 4) =
      true := by decide
theorem test_append_refused :
    (Machine.append ⟨0#8, 0#8, 0#8, 0#8⟩ { prog [0, 0, 0, 1] with params := { Params.default with progMax := 6 } }).1 =
      .appendRefused := by decide

/-! ### The FSM: one run-once of DIV takes IDLE, OPCODE, three FIELDs, EXECUTE, DONE -/

theorem test_fsm_div :
    ((Fsm.start .runOnce (regs01 11 4 (prog [4, 0, 1, 2]))).ticks 7).report = some (.stepped .continued) := by decide
theorem test_fsm_fault :
    ((Fsm.start .runOnce (prog [1, 3, 50])).ticks 6).report =
      some (.stepped (.faulted (.invalidRegisterIndex 50#8))) := by decide

/-- R62: append is accepted in IDLE and shows at once; while a run is being served it is rejected, in FIELD and in the IDLE
between two steps, and the run goes on. -/
theorem test_fsm_append_only_in_idle :
    ((Fsm.ready (prog [5])).host (.append ⟨1#8, 2#8, 3#8, 4#8⟩)).map (fun f => f.engine.prog.bytes) =
      some [5#8, 1#8, 2#8, 3#8, 4#8] ∧
    ([2, 7].all fun n =>
      ((((Fsm.start (.run none) (prog [9, 0, 1, 0, 5])).ticks n).host (.append ⟨1#8, 2#8, 3#8, 4#8⟩)).isNone)) = true := by
  decide
theorem test_fsm_rejected_request_is_a_visit :
    (((Fsm.start .runOnce (prog [5])).ticks 1).transition (some (.preload (.pc 9)))).phase = .execute := by decide

/-! ### How the host places a word (R65): the step runs exactly it -/

theorem test_with_fetch_word :
    nextIs (step (State.reset.withFetchWord 32 0x000501F4)) (fun t => readReg 5 t == 500#32 && t.pc == 4) = true := by decide

/-! ### Witnesses: for each statement with hypotheses, data that meets them all, clause by clause -/

theorem witness_DecodeOfEncodeIsTheInstruction :
    (∀ k, k < (encode (.load 31 65535#16)).length →
      listSource (encode (.load 31 65535#16)) (0 + k) = (encode (.load 31 65535#16))[k]?) ∧
    (∀ k, k < (encode (.unassigned18to19 0#1)).length →
      listSource [18#8] (0 + k) = (encode (.unassigned18to19 0#1))[k]?) := by decide

theorem witness_DecodedBytesAreTheEncoding :
    decodeAt (listSource [0#8, 31#8, 255#8, 255#8]) 0 = .ok (.load 31 65535#16) 4 ∧
    decodeAt (listSource [9#8, 15#8, 0#8]) 1 = .ok (.jmpe 0) 3 := by decide

/-- Bytes 0, 4, 5, 6, 8, 9, 14, 15, 16, 17 (the table, where the lengths meet) and 18, 255 (beyond it). -/
theorem witness_OpcodeByteSelectsInstructionAndLength :
    ([0, 4, 5, 6, 8, 9, 14, 15, 16, 17, 18, 255].all fun b =>
      match decodeAt (listSource [BitVec.ofNat 8 b, 0#8, 0#8, 0#8]) 0 with
      | .ok _ _ => true
      | .error _ => false) = true := by decide

theorem witness_UnrecognizedBytesDecodeToIllegal :
    (listSource [16#8] 0 = some 16#8 ∧ (16#8).toNat = 16) ∧ (listSource [18#8] 0 = some 18#8 ∧ 18 ≤ (18#8).toNat) ∧
    (listSource [255#8] 0 = some 255#8 ∧ 18 ≤ (255#8).toNat) ∧
    (prog [16]).prog.read (prog [16]).pc.toNat = some 16#8 ∧ (prog [255]).prog.read (prog [255]).pc.toNat = some 255#8 := by
  decide

theorem witness_RecordWellFormedIffAssignedInstruction :
    Record.wellFormed ⟨17#8, 31#8, 255#8, 255#8⟩ = true ∧
    decodeAt (listSource [17#8, 31#8, 255#8, 255#8]) 0 = .ok (.aloc 31 255#8 255#8) 4 ∧
    (Instr.aloc 31 255#8 255#8).wellFormed = true ∧ Record.wellFormed ⟨17#8, 32#8, 0#8, 0#8⟩ = false := by decide

theorem witness_EncodedRecordDecodesAndPadsWithZero :
    (encode (.jmp 31)).length ≤ 2 ∧ 2 < 4 ∧ (encodeRecord (.jmp 31)).bytes[2]? = some 0#8 := by decide

theorem witness_StepRunsTheInstructionAtPc :
    ∀ k, k < (encode (.add 0 1 2)).length →
      (prog [1, 0, 1, 2]).prog.read ((prog [1, 0, 1, 2]).pc.toNat + k) = (encode (.add 0 1 2))[k]? := by decide

/-- A missing opcode byte; a missing third field; a bad second field behind a good first one. -/
theorem witness_FirstBadFieldDecidesTheFault :
    State.reset.prog.read State.reset.pc.toNat = none ∧
    ((prog [1, 3, 4]).prog.read 0 = some 1#8 ∧ 2 < (Opcode.ofByte 1#8).fields.length ∧
      (prog [1, 3, 4]).prog.read 1 = some 3#8 ∧ (prog [1, 3, 4]).prog.read 2 = some 4#8 ∧
      (prog [1, 3, 4]).prog.read 3 = none) ∧
    ((prog [1, 31, 32]).prog.read 0 = some 1#8 ∧ (Opcode.ofByte 1#8).fields[1]? = some .reg ∧
      (prog [1, 31, 32]).prog.read 1 = some 31#8 ∧ (prog [1, 31, 32]).prog.read 2 = some 32#8) := by decide

theorem witness_GoodFieldsRaiseNoStreamOrIndexFault :
    (prog [9, 0, 31, 255]).prog.read 0 = some 9#8 ∧ (Opcode.ofByte 9#8).fields = [.reg, .reg, .pad] ∧
    (prog [9, 0, 31, 255]).prog.read 1 = some 0#8 ∧ (prog [9, 0, 31, 255]).prog.read 2 = some 31#8 ∧
    (prog [9, 0, 31, 255]).prog.read 3 = some 255#8 := by decide

theorem witness_FetchBeyondTheBufferFaults :
    (setPc 1 (prog [5])).prog.wf ∧ (setPc 1 (prog [5])).prog.size ≤ (setPc 1 (prog [5])).pc.toNat := by decide

/-- One fetched and completed instruction per clause. -/
theorem witness_CompletedStepReportsItsOutcome :
    (fetchInstr (prog [5]) = .ok .hlt 1 ∧ nextIs (step (prog [5])) (fun _ => true) = true) ∧
    (fetchInstr (prog [16]) = .ok .illegal 1 ∧ nextIs (step (prog [16])) (fun _ => true) = true) ∧
    (fetchInstr (prog [6, 0]) = .ok (.jmp 0) 2 ∧ nextIs (step (prog [6, 0])) (fun _ => true) = true) := by decide

theorem witness_FaultIsPreciseAndRepeats :
    runOnce State.reset = .ok (.faulted (.malformedStream 0), latch (.faulted (.malformedStream 0)) State.reset) := rfl

/-- A comparison, and a JMPE that is not taken. -/
theorem witness_SequentialAdvanceNeverWraps :
    ((prog [15, 1]).Valid ∧ fetchInstr (prog [15, 1]) = .ok (.jmpe 1) 2 ∧ (prog [15, 1]).eqf = false ∧
      nextIs (step (prog [15, 1])) (fun t => t.pc.toNat == 2) = true) ∧
    (prog [9, 0, 1, 0]).Valid ∧ fetchInstr (prog [9, 0, 1, 0]) = .ok (.eq 0 1 0#8) 4 ∧
    nextIs (step (prog [9, 0, 1, 0])) (fun t => t.pc.toNat == 4) = true := by decide

/-- The default and the smallest legal parameters. -/
theorem witness_ConstructedStateIsValid :
    Params.default.wf ∧ Params.wf { progMax := 4, heapMax := 0, overflowPolicy := .fault } := by decide

theorem witness_EveryStepKeepsValidity :
    (prog [17, 0, 0, 0]).Valid ∧ nextIs (step (prog [17, 0, 0, 0])) (fun t => decide t.Valid) = true := by decide

/-- One valid state and a returned reply for every operation. -/
theorem witness_EveryHostOperationKeepsValidity :
    (prog [6, 0, 0, 0]).Valid ∧
    ([HostOp.construct, .append ⟨255#8, 255#8, 255#8, 255#8⟩, .runOnce, .run (some 3), .inspect .pc,
      .preload (.heapLen 4294967295#32), .preload (.prog [5#8])].all fun op =>
        (perform 3 op (prog [6, 0, 0, 0])).isSome) = true := by decide

theorem witness_NoStepWritesMemory : nextIs (step (prog [0, 0, 0, 0])) (fun _ => true) = true := by decide

theorem witness_LoadBytesAreBigEndian :
    (prog [0, 31, 255, 0]).prog.read 0 = some 0#8 ∧ (prog [0, 31, 255, 0]).prog.read 1 = some (BitVec.ofNat 8 31) ∧
    (prog [0, 31, 255, 0]).prog.read 2 = some 255#8 ∧ (prog [0, 31, 255, 0]).prog.read 3 = some 0#8 := by decide

/-- The largest sum that fits, under the fault policy; a sum that does not, under wrap. -/
theorem witness_AddWritesTheSum :
    ((faultPolicy (regs01 0x7FFFFFFE 1 State.reset)).params.overflowPolicy = .fault ∧
      signed (readReg 0 (regs01 0x7FFFFFFE 1 State.reset)) + signed (readReg 1 (regs01 0x7FFFFFFE 1 State.reset)) =
        2147483647) ∧
    ((regs01 0x7FFFFFFF 1 State.reset).params.overflowPolicy = .wrap ∧
      ¬ fitsSigned32 (signed (readReg 0 (regs01 0x7FFFFFFF 1 State.reset)) +
        signed (readReg 1 (regs01 0x7FFFFFFF 1 State.reset)))) := by decide

theorem witness_SubWritesTheDifference :
    (signed (readReg 0 (regs01 0xFFFFFFFF 0x7FFFFFFF State.reset)) -
      signed (readReg 1 (regs01 0xFFFFFFFF 0x7FFFFFFF State.reset)) = -2147483648) ∧
    ((regs01 0 0x80000000 State.reset).params.overflowPolicy = .wrap ∧
      ¬ fitsSigned32 (signed (readReg 0 (regs01 0 0x80000000 State.reset)) -
        signed (readReg 1 (regs01 0 0x80000000 State.reset)))) := by decide

theorem witness_MulWritesTheProduct :
    (signed (readReg 0 (regs01 6 0xFFFFFFF9 State.reset)) * signed (readReg 1 (regs01 6 0xFFFFFFF9 State.reset)) = -42) ∧
    ((regs01 65536 65536 State.reset).params.overflowPolicy = .wrap ∧
      ¬ fitsSigned32 (signed (readReg 0 (regs01 65536 65536 State.reset)) *
        signed (readReg 1 (regs01 65536 65536 State.reset)))) := by decide

/-- An exact division under the fault policy; INT_MIN / -1 under wrap. -/
theorem witness_DivWritesQuotientAndRemainder :
    (signed (readReg 1 (faultPolicy (regs01 0xFFFFFFF9 2 State.reset))) ≠ 0 ∧
      signed (readReg 0 (faultPolicy (regs01 0xFFFFFFF9 2 State.reset))) = -7) ∧
    (signed (readReg 1 (regs01 0x80000000 0xFFFFFFFF State.reset)) = -1 ∧
      signed (readReg 0 (regs01 0x80000000 0xFFFFFFFF State.reset)) = -2147483648 ∧
      (regs01 0x80000000 0xFFFFFFFF State.reset).params.overflowPolicy = .wrap) := by decide

theorem witness_QuotientOverflowsInExactlyOneCase :
    signed 0xFFFFFFFF#32 ≠ 0 ∧ ¬ fitsSigned32 (truncQuotient (signed 0x80000000#32) (signed 0xFFFFFFFF#32)) ∧
    fitsSigned32 (truncQuotient (signed 0x80000001#32) (signed 0xFFFFFFFF#32)) := by decide

/-- Each of the four instructions meets the right side in one state. -/
theorem witness_OverflowFaultOnlyUnderFaultPolicy :
    (faultPolicy (regs01 0x80000000 0xFFFFFFFF State.reset)).params.overflowPolicy = .fault ∧
    ¬ fitsSigned32 (signed 0x80000000#32 + signed 0xFFFFFFFF#32) ∧
    ¬ fitsSigned32 (signed 0xFFFFFFFF#32 - signed 0x7FFFFFFF#32 - 1) ∧
    ¬ fitsSigned32 (signed 0x80000000#32 * signed 0xFFFFFFFF#32) ∧
    faultIs (exec (.add 0 1 2) (faultPolicy (regs01 0x80000000 0xFFFFFFFF State.reset))) .arithmeticOverflow = true ∧
    faultIs (exec (.sub 2 0 2) (faultPolicy (regs01 0x80000000 0xFFFFFFFF State.reset))) .arithmeticOverflow = true ∧
    faultIs (exec (.mul 0 1 2) (faultPolicy (regs01 0x80000000 0xFFFFFFFF State.reset))) .arithmeticOverflow = true ∧
    faultIs (exec (.div 0 1 2) (faultPolicy (regs01 0x80000000 0xFFFFFFFF State.reset))) .arithmeticOverflow = true := by
  decide

theorem witness_DivideByZeroExactlyOnZeroDivisor :
    signed (readReg 1 State.reset) = 0 ∧ faultIs (exec (.div 0 1 2) State.reset) .divideByZero = true ∧
    faultIs (step (prog [4, 0, 1, 2])) .divideByZero = true := by decide

theorem witness_IllegalAndUnassignedHaltAfterOneByte :
    ([Instr.illegal, .unassigned18to19 1#1, .unassigned20to23 3#2, .unassigned24to31 7#3, .unassigned32to63 31#5,
      .unassigned64to127 63#6, .unassigned128to255 127#7].all fun i => decide (i.opcode = .illegal)) = true := by decide

/-- Both values of the flag. -/
theorem witness_JmpeFollowsTheFlag : State.reset.eqf = false ∧ (setEqf true State.reset).eqf = true := by decide

/-- Both ends of the range: HEAP_MAX itself, and zero by shrinking. -/
theorem witness_AlocResizesTheHeap :
    (let s := { regs01 24 0 (heapResize 1000 State.reset) with params := { Params.default with heapMax := 1024 } }
     s.params.heapMax ≤ 4294967295 ∧ (s.heapLen.toNat : Int) + signed (readReg 0 s) = 1024) ∧
    (let s := regs01 0xFFFFFFFB 0 (heapResize 5 State.reset)
     s.params.heapMax ≤ 4294967295 ∧ (s.heapLen.toNat : Int) + signed (readReg 0 s) = 0) := by decide

theorem witness_HeapRangeExactlyOutOfBounds :
    faultIs (exec (.aloc 0 0#8 0#8) (regs01 0xFFFFFFFF 0 State.reset)) .heapRange = true ∧
    faultIs (exec (.aloc 0 0#8 0#8) (heapResize 4294967295 (regs01 1 0 State.reset))) .heapRange = true := by decide

/-- All five complete at one state with non-zero registers. -/
theorem witness_RegisterWritersFrame :
    ([Instr.load 2 7#16, .add 0 1 2, .sub 0 1 2, .mul 0 1 2, .div 0 1 2].all fun i =>
      nextIs (exec i (regs01 11 4 State.reset)) fun _ => true) = true := by decide

theorem witness_ComparisonFrame :
    ([Instr.eq 0 1 0#8, .neq 0 1 0#8, .gte 0 1 0#8, .lte 0 1 0#8, .gt 0 1 0#8, .lt 0 1 0#8].all fun i =>
      nextIs (exec i (regs01 11 4 State.reset)) fun _ => true) = true := by decide

theorem witness_JumpFrame :
    ([Instr.jmp 0, .jmpf 0, .jmpb 0, .jmpe 0].all fun i =>
      nextIs (exec i (regs01 11 4 State.reset)) fun _ => true) = true := by decide

theorem witness_AlocFrame :
    nextIs (exec (.aloc 0 0#8 0#8) (regs01 11 4 State.reset)) (fun _ => true) = true := by decide

/-- One step that changes each element: the flag, `rem`, the heap's length, a register. -/
theorem witness_EachStateElementHasItsOnlyWriters :
    nextIs (step (prog [9, 0, 1, 0])) (fun t => t.eqf) = true ∧
    nextIs (step (regs01 11 4 (prog [4, 0, 1, 2]))) (fun t => t.rem != 0) = true ∧
    nextIs (step (regs01 11 4 (prog [17, 0, 0, 0]))) (fun t => t.heapLen != 0) = true ∧
    nextIs (step (prog [0, 0, 0, 1])) (fun t => readReg 0 t != 0) = true := by decide

/-- A comparison, and an instruction that hands the flag on. -/
theorem witness_OnlyJmpeReadsTheFlag :
    (fetchInstr (prog [9, 0, 1, 0]) = .ok (.eq 0 1 0#8) 4 ∧ (Instr.eq 0 1 0#8).opcode ≠ .jmpe) ∧
    (fetchInstr (prog [0, 0, 0, 1]) = .ok (.load 0 1#16) 4 ∧
      nextIs (step (setEqf true (prog [0, 0, 0, 1]))) (fun u => u.eqf) = true) := by decide

/-- DIV and ALOC completing; a fault of each of the two. -/
theorem witness_RemainderAndHeapLengthAreNotOperands :
    (fetchInstr (regs01 11 4 (prog [17, 0, 0, 0])) = .ok (.aloc 0 0#8 0#8) 4 ∧
      nextIs (step (regs01 11 4 (prog [17, 0, 0, 0]))) (fun _ => true) = true) ∧
    faultIs (step (regs01 0xFFFFFFFF 0 (prog [17, 0, 0, 0]))) .heapRange = true ∧
    faultIs (step (prog [4, 0, 1, 2])) .divideByZero = true ∧
    fetchInstr (regs01 11 4 (prog [4, 0, 1, 2])) = .ok (.div 0 1 2) 4 ∧ (Instr.div 0 1 2).opcode ≠ .aloc ∧
    nextIs (step (regs01 11 4 (prog [4, 0, 1, 2]))) (fun _ => true) = true := by decide

/-- Both values of the flag. -/
theorem witness_DoubledJmpeKeepsInStep :
    (prog [15, 31, 15, 31]).Valid ∧ (prog [15, 31, 15, 31]).prog.read 0 = some 15#8 ∧
    (prog [15, 31, 15, 31]).prog.read 1 = some (BitVec.ofNat 8 31) ∧ (prog [15, 31, 15, 31]).prog.read 2 = some 15#8 ∧
    (prog [15, 31, 15, 31]).prog.read 3 = some (BitVec.ofNat 8 31) ∧ (prog [15, 31, 15, 31]).eqf = false ∧
    (setEqf true (prog [15, 31, 15, 31])).Valid := by decide

/-- P3: the padded JMPE record before a HLT record. -/
theorem witness_NotTakenJmpeFallsIntoItsPadding :
    (prog [15, 1, 0, 0, 5, 0, 0, 0]).Valid ∧ (prog [15, 1, 0, 0, 5, 0, 0, 0]).eqf = false ∧
    (prog [15, 1, 0, 0, 5, 0, 0, 0]).prog.read 0 = some 15#8 ∧
    (prog [15, 1, 0, 0, 5, 0, 0, 0]).prog.read 1 = some (BitVec.ofNat 8 1) ∧
    (prog [15, 1, 0, 0, 5, 0, 0, 0]).prog.read 2 = some 0#8 ∧ (prog [15, 1, 0, 0, 5, 0, 0, 0]).prog.read 3 = some 0#8 ∧
    (prog [15, 1, 0, 0, 5, 0, 0, 0]).prog.read 4 = some 5#8 ∧
    (prog [15, 1, 0, 0, 5, 0, 0, 0]).prog.read 5 = some 0#8 := by decide

/-- Room for exactly one record, and for none. -/
theorem witness_AppendAddsTheRecordOrRefuses :
    State.reset.prog.wf ∧ (construct { Params.default with progMax := 4 }).prog.size + 4 ≤ 4 ∧
    (prog [5]).prog.wf ∧ 4 < (prog [5]).prog.size + 4 := by decide

theorem witness_BootRunsTheFirstAppendedRecord :
    Params.wf { progMax := 4, heapMax := 0, overflowPolicy := .fault } := by decide

/-- One accepted preload per clause, the heap length at HEAP_MAX, and one out of each range. -/
theorem witness_PreloadWritesItsItemAlone :
    ([Preload.reg 31 1#32, .pc 4294967295#32, .eqf true, .rem 1#32, .heapLen 4294967295#32, .prog [5#8]].all fun p =>
      (Machine.preload p State.reset).isSome) = true ∧
    ([Preload.heapLen 11#32, .prog [1#8, 2#8, 3#8, 4#8, 5#8]].all fun p =>
      (Machine.preload p (construct { progMax := 4, heapMax := 10, overflowPolicy := .wrap })).isNone) = true := by decide

/-- One run per clause: end of buffer, step limit, halt, fault. -/
theorem witness_RunEndsAsItReports :
    (Machine.run 0 none State.reset).map Prod.fst = some .endOfBuffer ∧
    (Machine.run 2 (some 2) (prog [6, 0])).map Prod.fst = some .stepLimit ∧
    (Machine.run 1 none (prog [5])).map Prod.fst = some (.halted .hlt) ∧
    (Machine.run 1 none (prog [0])).map Prod.fst = some (.faulted (.malformedStream 1)) := by decide

theorem witness_RunResultDoesNotDependOnFuel : (Machine.run 1 none (prog [5])).isSome = true := by decide

/-- A completed step and a faulting one. -/
theorem witness_FsmRefinesRunOnce :
    runOnce (prog [5]) = .ok (.halted .hlt, latch (.halted .hlt) (setPc 1 (prog [5]))) ∧
    runOnce State.reset = .ok (.faulted (.malformedStream 0), latch (.faulted (.malformedStream 0)) State.reset) :=
  ⟨rfl, rfl⟩

theorem witness_FsmRefinesRun : (Machine.run 3 none (prog [9, 0, 1, 0, 5])).map Prod.fst = some (.halted .hlt) := by decide

/-- A phase that writes nothing, and FAULT. -/
theorem witness_FsmWritesOnlyInExecute :
    (Fsm.start .runOnce State.reset).phase ≠ .execute ∧ (∀ k, (Fsm.start .runOnce State.reset).phase ≠ .fault k) ∧
    ((Fsm.start .runOnce State.reset).ticks 2).phase = .fault (.malformedStream 0) := by
  refine ⟨by decide, fun k h => ?_, by decide⟩
  cases h

/-- A phase that rejects, IDLE between two steps of a run (R63), and IDLE at rest. -/
theorem witness_FsmServesTheHostInIdleAlone :
    ((Fsm.start .runOnce (prog [5])).ticks 1).phase = .opcode ∧
    (((Fsm.start (.run none) (prog [9, 0, 1, 0, 5])).ticks 7).phase = .idle ∧
      ((Fsm.start (.run none) (prog [9, 0, 1, 0, 5])).ticks 7).command = some (.run none)) ∧
    ((Fsm.ready (prog [5])).phase = .idle ∧ (Fsm.ready (prog [5])).command = none ∧
      (perform 1 (.run none) (Fsm.ready (prog [5])).engine).isSome = true) := by decide

/-- A bad destination field behind good sources, in a whole record; JMPE with the flag false. -/
theorem witness_InvalidRegisterIndexExactlyForBadRegisterFields :
    (faultIs (step (prog [1, 0, 1, 32])) (.invalidRegisterIndex 32#8) = true ∧
      (prog [1, 0, 1, 32]).prog.read 0 = some 1#8 ∧ (Opcode.ofByte 1#8).fields = [.reg, .reg, .reg] ∧
      (prog [1, 0, 1, 32]).prog.read 1 = some 0#8 ∧ (prog [1, 0, 1, 32]).prog.read 2 = some 1#8 ∧
      (prog [1, 0, 1, 32]).prog.read 3 = some 32#8) ∧
    ((prog [15, 255]).eqf = false ∧ faultIs (step (prog [15, 255])) (.invalidRegisterIndex 255#8) = true) := by decide

/-- (a) an empty buffer; (b) a comparison whose padding byte alone is missing; a run that meets (b). -/
theorem witness_MalformedStreamExactlyForMissingBytes :
    (State.reset.prog.wf ∧ State.reset.prog.size ≤ State.reset.pc.toNat) ∧
    ((prog [9, 0, 31]).prog.wf ∧ (prog [9, 0, 31]).prog.read 0 = some 9#8 ∧
      (Opcode.ofByte 9#8).fields = [.reg, .reg, .pad] ∧ (prog [9, 0, 31]).prog.size = 3 ∧
      (prog [9, 0, 31]).prog.read 1 = some 0#8 ∧ (prog [9, 0, 31]).prog.read 2 = some 31#8 ∧
      faultIs (step (prog [9, 0, 31])) (.malformedStream 3) = true) ∧
    (Machine.run 1 none (prog [9, 0, 31])).map Prod.fst = some (.faulted (.malformedStream 3)) := by decide

end Sys2Proof.Tests
end

section
/-! The state after construction (R21): one rule per piece of state that no law above states, and the settlement of O17. -/

namespace Sys2Proof.Machine

@[simp] theorem construct_pc (p : Params) : (construct p).pc = 0#32 := rfl
@[simp] theorem construct_heapLen (p : Params) : (construct p).heapLen = 0#32 := rfl
@[simp] theorem construct_rem (p : Params) : (construct p).rem = 0#32 := rfl
@[simp] theorem construct_eqf (p : Params) : (construct p).eqf = false := rfl
@[simp] theorem construct_lastOutcome (p : Params) : (construct p).lastOutcome = none := rfl
@[simp] theorem construct_params (p : Params) : (construct p).params = p := rfl

/-- Construction leaves the canonical buffer of no bytes, so the laws of `Memory.ofBytes` apply to it. -/
@[simp] theorem construct_prog (p : Params) : (construct p).prog = Memory.ofBytes [] := rfl

/-- The defaults of R7. -/
theorem default_params_values :
    Params.default.progMax = 2 ^ 32 - 1 ∧ Params.default.heapMax = 2 ^ 32 - 1 ∧
      Params.default.overflowPolicy = .wrap := by
  decide

/-- Settles O17: the pieces of state one by one, the buffer's bytes by reading the buffer of no bytes. -/
theorem constructGivesTheResetValues : Obligations.ConstructGivesTheResetValues := by
  unfold Obligations.ConstructGivesTheResetValues
  refine ⟨fun p => ?_, rfl, default_params_values⟩
  have hsize : (construct p).prog.size = 0 := by simp
  have hread (a : Nat) : (construct p).prog.read a = none := by simp
  exact ⟨fun r => readReg_construct r p, construct_pc p, hsize, hread, construct_heapLen p, construct_rem p,
    construct_eqf p, construct_lastOutcome p, construct_params p⟩

end Sys2Proof.Machine
end

section
/-! How far a successful decode reaches: it consumes the length of its opcode (R37), every byte of it inside the
source. Said once of each fetch and of their composition, then read off each format. -/

namespace Sys2Proof

/-- A fetch at `p`, if it succeeds, leaves the fetch pointer at `q`, has found every byte from `p` up to `q`, and gives a
value with property `P`. -/
def Consumes {α : Type} (rd : ByteSource) (p q : Nat) (P : α → Prop) (f : Fetched α) : Prop :=
  ∀ v n, f = .ok v n → n = q ∧ (∀ a, p ≤ a → a < q → ∃ b, rd a = some b) ∧ P v

theorem Consumes.ok {α : Type} {rd : ByteSource} {p : Nat} {P : α → Prop} {v : α} (h : P v) :
    Consumes rd p p P (.ok v p) := by
  rintro _ _ ⟨⟩
  exact ⟨rfl, fun a hp hq => absurd hp (Nat.not_le_of_lt hq), h⟩

/-- Two fetches in a row consume what the first and then the second consume. -/
theorem Consumes.andThen {α β : Type} {rd : ByteSource} {p q e : Nat} {Q : α → Prop} {P : β → Prop} {f : Fetched α}
    {g : α → Nat → Fetched β} (hf : Consumes rd p q Q f) (hg : ∀ v, Consumes rd q e P (g v q)) :
    Consumes rd p e P (f.andThen g) := by
  intro w n h
  obtain ⟨v, m, hv, hw⟩ := Fetched.andThen_eq_ok.1 h
  obtain ⟨rfl, hfirst, -⟩ := hf v m hv
  obtain ⟨rfl, hrest, hP⟩ := hg v w n hw
  refine ⟨rfl, fun a hp he => ?_, hP⟩
  by_cases ha : a < m
  · exact hfirst a hp ha
  · exact hrest a (Nat.le_of_not_lt ha) he

theorem consumes_fetchByte (rd : ByteSource) (p : Nat) : Consumes rd p (p + 1) (fun _ => True) (fetchByte rd p) := by
  intro b n h
  obtain ⟨hb, rfl⟩ := fetchByte_eq_ok.1 h
  refine ⟨rfl, fun a hp hq => ⟨b, ?_⟩, trivial⟩
  obtain rfl : a = p := by omega
  exact hb

theorem consumes_fetchReg (rd : ByteSource) (p : Nat) : Consumes rd p (p + 1) (fun _ => True) (fetchReg rd p) := by
  intro r n h
  obtain ⟨hr, rfl⟩ := fetchReg_eq_ok.1 h
  exact consumes_fetchByte rd p (regByte r) (p + 1) (fetchByte_of_some hr)

theorem consumes_fetchHalf (rd : ByteSource) (p : Nat) : Consumes rd p (p + 2) (fun _ => True) (fetchHalf rd p) :=
  (consumes_fetchByte rd p).andThen fun _ => (consumes_fetchByte rd (p + 1)).andThen fun _ => .ok trivial

section
variable {P : Instr → Prop} (rd : ByteSource) (p : Nat)

theorem consumes_fetchRI {mk : Reg → Half → Instr} (h : ∀ r imm, P (mk r imm)) :
    Consumes rd p (p + 3) P (fetchRI mk rd p) :=
  (consumes_fetchReg rd p).andThen fun r => (consumes_fetchHalf rd (p + 1)).andThen fun imm => .ok (h r imm)

theorem consumes_fetchRRR {mk : Reg → Reg → Reg → Instr} (h : ∀ a b d, P (mk a b d)) :
    Consumes rd p (p + 3) P (fetchRRR mk rd p) :=
  (consumes_fetchReg rd p).andThen fun a => (consumes_fetchReg rd (p + 1)).andThen fun b =>
    (consumes_fetchReg rd (p + 2)).andThen fun d => .ok (h a b d)

theorem consumes_fetchRRP {mk : Reg → Reg → Byte → Instr} (h : ∀ a b x, P (mk a b x)) :
    Consumes rd p (p + 3) P (fetchRRP mk rd p) :=
  (consumes_fetchReg rd p).andThen fun a => (consumes_fetchReg rd (p + 1)).andThen fun b =>
    (consumes_fetchByte rd (p + 2)).andThen fun x => .ok (h a b x)

theorem consumes_fetchRPP {mk : Reg → Byte → Byte → Instr} (h : ∀ r x y, P (mk r x y)) :
    Consumes rd p (p + 3) P (fetchRPP mk rd p) :=
  (consumes_fetchReg rd p).andThen fun r => (consumes_fetchByte rd (p + 1)).andThen fun x =>
    (consumes_fetchByte rd (p + 2)).andThen fun y => .ok (h r x y)

theorem consumes_fetchR {mk : Reg → Instr} (h : ∀ r, P (mk r)) : Consumes rd p (p + 1) P (fetchR mk rd p) :=
  (consumes_fetchReg rd p).andThen fun r => .ok (h r)

end

theorem opcode_illegalOfByte (b : Byte) : (illegalOfByte b).opcode = .illegal := by
  unfold illegalOfByte
  repeat' split
  all_goals rfl

/-- The fields fetched for an opcode are as many as the opcode has, and the instruction is one of that opcode. -/
theorem consumes_fetchOperands (rd : ByteSource) (b : Byte) (p : Nat) (op : Opcode) :
    Consumes rd p (p + op.fields.length) (fun i => i.opcode = op) (fetchOperands rd b p op) := by
  cases op with
  | load => exact consumes_fetchRI rd p fun _ _ => rfl
  | add | sub | mul | div => exact consumes_fetchRRR rd p fun _ _ _ => rfl
  | eq | neq | gte | lte | gt | lt => exact consumes_fetchRRP rd p fun _ _ _ => rfl
  | aloc => exact consumes_fetchRPP rd p fun _ _ _ => rfl
  | jmp | jmpf | jmpb | jmpe => exact consumes_fetchR rd p fun _ => rfl
  | hlt => exact .ok rfl
  | illegal => exact .ok (opcode_illegalOfByte b)

/-- Every instruction has as many bytes as its opcode consumes (R37). -/
theorem length_encode (i : Instr) : (encode i).length = i.opcode.length := by cases i <;> rfl

/-- A decoded instruction's bytes are all there, and the fetch pointer stands right after them (R37, R54). -/
theorem decodeAt_ok_reaches {rd : ByteSource} {p n : Nat} {i : Instr} (h : decodeAt rd p = .ok i n) :
    n = p + (encode i).length ∧ ∀ a, p ≤ a → a < n → ∃ b, rd a = some b := by
  obtain ⟨b, q, hb, hi⟩ := Fetched.andThen_eq_ok.1 h
  obtain ⟨rfl, hopcode, -⟩ := consumes_fetchByte rd p b q hb
  obtain ⟨rfl, hfields, hop⟩ := consumes_fetchOperands rd b (p + 1) (Opcode.ofByte b) i n hi
  refine ⟨by rw [length_encode, hop, Opcode.length, Nat.add_assoc], fun a hp hn => ?_⟩
  by_cases ha : a < p + 1
  · exact hopcode a hp ha
  · exact hfields a (Nat.le_of_not_lt ha) hn

end Sys2Proof
end

section
/-! What `exec` can do, said once. The 24 arms come in eight shapes; from the shapes follow everything a completed
instruction can have done (`Completed`), and from that what each piece of state keeps (R10, R14, R16, R17, R27).
Settles O43, O16, O19 and O18. -/

namespace Sys2Proof.Machine

/-- The six comparisons (R83). -/
abbrev IsComparison (op : Opcode) : Prop :=
  op = .eq ∨ op = .neq ∨ op = .gte ∨ op = .lte ∨ op = .gt ∨ op = .lt

/-- The five opcodes with a destination register (R10). -/
abbrev WritesRegister (op : Opcode) : Prop := op = .load ∨ op = .add ∨ op = .sub ∨ op = .mul ∨ op = .div

/-- The shapes of an instruction's meaning, as a function of the state it runs in. -/
inductive ExecShape (i : Instr) : Prop
  | load (r : Reg) (imm : Half) (hop : i.opcode = .load)
      (h : ∀ s, exec i s = continueAfter 4 (writeReg r (zext32 imm) s))
  | arith (f : Int → Int → Int) (a b d : Reg) (hop : i.opcode = .add ∨ i.opcode = .sub ∨ i.opcode = .mul)
      (h : ∀ s, exec i s = writeExact (f (signedOperand a s) (signedOperand b s)) d s)
  | div (a b d : Reg) (hop : i.opcode = .div) (h : ∀ s, exec i s = execDiv a b d s)
  | compare (rel : Int → Int → Bool) (a b : Reg) (hop : IsComparison i.opcode)
      (h : ∀ s, exec i s = compareWith rel a b s)
  | jump (target : Word → Word → Word) (r : Reg) (hop : i.opcode = .jmp ∨ i.opcode = .jmpf ∨ i.opcode = .jmpb)
      (h : ∀ s, exec i s = continueAt (target s.pc (readReg r s)) s)
  | jmpe (r : Reg) (hop : i.opcode = .jmpe) (h : ∀ s, exec i s = execJmpe r s)
  | halt (c : HaltCause) (hop : i.opcode = .hlt ∧ c = .hlt ∨ i.opcode = .illegal ∧ c = .illegal)
      (h : ∀ s, exec i s = haltStep c s)
  | aloc (r : Reg) (hop : i.opcode = .aloc) (h : ∀ s, exec i s = execAloc r s)

/-- Every instruction has one of the shapes: the one place where all arms of `exec` are gone through. -/
theorem execShape (i : Instr) : ExecShape i := by
  cases i with
  | load r imm => exact .load r imm rfl fun _ => rfl
  | add a b d => exact .arith (· + ·) a b d (by simp [Instr.opcode]) fun _ => rfl
  | sub a b d => exact .arith (· - ·) a b d (by simp [Instr.opcode]) fun _ => rfl
  | mul a b d => exact .arith (· * ·) a b d (by simp [Instr.opcode]) fun _ => rfl
  | div a b d => exact .div a b d rfl fun _ => rfl
  | hlt => exact .halt .hlt (.inl ⟨rfl, rfl⟩) fun _ => rfl
  | jmp r => exact .jump (fun _ v => v) r (by simp [Instr.opcode]) fun _ => rfl
  | jmpf r => exact .jump (fun pc v => pc + 2#32 + v) r (by simp [Instr.opcode]) fun _ => rfl
  | jmpb r => exact .jump (fun pc v => pc + 2#32 - v) r (by simp [Instr.opcode]) fun _ => rfl
  | eq a b _ => exact .compare relEq a b (show IsComparison .eq by decide) fun _ => rfl
  | neq a b _ => exact .compare relNeq a b (show IsComparison .neq by decide) fun _ => rfl
  | gte a b _ => exact .compare relGte a b (show IsComparison .gte by decide) fun _ => rfl
  | lte a b _ => exact .compare relLte a b (show IsComparison .lte by decide) fun _ => rfl
  | gt a b _ => exact .compare relGt a b (show IsComparison .gt by decide) fun _ => rfl
  | lt a b _ => exact .compare relLt a b (show IsComparison .lt by decide) fun _ => rfl
  | jmpe r => exact .jmpe r rfl fun _ => rfl
  | aloc r _ _ => exact .aloc r rfl fun _ => rfl
  | illegal | unassigned18to19 | unassigned20to23 | unassigned24to31 | unassigned32to63 | unassigned64to127
  | unassigned128to255 => exact .halt .illegal (.inr ⟨rfl, rfl⟩) fun _ => rfl

/-- Everything an instruction can have done when it completes: the state it ran in and the state after it. -/
inductive Completed (i : Instr) (s : State) : State → Prop
  | register (d : Reg) (v : Word)
      (hop : i.opcode = .load ∨ i.opcode = .add ∨ i.opcode = .sub ∨ i.opcode = .mul) :
      Completed i s (latch .continued (setPc (npc 4 s) (writeReg d v s)))
  | division (d : Reg) (q r : Word) (hop : i.opcode = .div) :
      Completed i s (latch .continued (setPc (npc 4 s) (writeReg d q (setRem r s))))
  | comparison (b : Bool) (hop : IsComparison i.opcode) :
      Completed i s (latch .continued (setPc (npc 4 s) (setEqf b s)))
  | jump (t : Word) (hop : i.opcode = .jmp ∨ i.opcode = .jmpf ∨ i.opcode = .jmpb) :
      Completed i s (latch .continued (setPc t s))
  | jmpe (r : Reg) (hop : i.opcode = .jmpe) :
      Completed i s (latch .continued (setPc (if s.eqf then readReg r s else npc 2 s) s))
  | halt (c : HaltCause) (hop : i.opcode = .hlt ∧ c = .hlt ∨ i.opcode = .illegal ∧ c = .illegal) :
      Completed i s (latch (.halted c) (setPc (npc 1 s) s))
  | aloc (n : Int) (hop : i.opcode = .aloc) (h0 : 0 ≤ n) (hmax : n ≤ s.params.heapMax) :
      Completed i s (latch .continued (setPc (npc 4 s) (heapResize n s)))

/-- What the arithmetic skeleton leaves when it completes. -/
theorem writeExact_eq_next {z : Int} {d : Reg} {s t : State} (h : writeExact z d s = .next t) :
    t = latch .continued (setPc (npc 4 s) (writeReg d (wrap32 z) s)) := by
  obtain ⟨-, h'⟩ | ⟨-, -, h'⟩ := writeExact_cases z d s
  · rw [h'] at h
    cases h
    rfl
  · rw [h'] at h
    cases h

/-- What DIV leaves when it completes (R73). -/
theorem execDiv_eq_next {a b d : Reg} {s t : State} (h : execDiv a b d s = .next t) :
    ∃ q r, t = latch .continued (setPc (npc 4 s) (writeReg d q (setRem r s))) := by
  obtain ⟨-, h'⟩ | ⟨-, h'⟩ := execDiv_cases a b d s
  · rw [h'] at h
    cases h
  · rw [h'] at h
    have ht := writeExact_eq_next h
    exact ⟨_, _, ht⟩

theorem completed_of_exec {i : Instr} {s t : State} (h : exec i s = .next t) : Completed i s t := by
  cases execShape i with
  | load r imm hop hi =>
    rw [hi, continueAfter_eq_next] at h
    subst h
    exact .register r (zext32 imm) (.inl hop)
  | arith f a b d hop hi =>
    rw [hi] at h
    rw [writeExact_eq_next h]
    exact .register d _ (.inr hop)
  | div a b d hop hi =>
    rw [hi] at h
    obtain ⟨q, r, rfl⟩ := execDiv_eq_next h
    exact .division d q r hop
  | compare rel a b hop hi =>
    rw [hi, compareWith_eq] at h
    cases h
    exact .comparison _ hop
  | jump target r hop hi =>
    rw [hi, continueAt_eq_next] at h
    subst h
    exact .jump _ hop
  | jmpe r hop hi =>
    rw [hi, execJmpe_eq] at h
    cases h
    exact .jmpe r hop
  | halt c hop hi =>
    rw [hi, haltStep_eq_next] at h
    subst h
    exact .halt c hop
  | aloc r hop hi =>
    rw [hi] at h
    obtain ⟨-, h'⟩ | ⟨⟨h0, hmax⟩, h'⟩ := execAloc_cases r s
    · rw [h'] at h
      cases h
    · rw [h'] at h
      cases h
      exact .aloc _ hop h0 hmax

namespace Completed
variable {i : Instr} {s t : State}

theorem prog_eq (h : Completed i s t) : t.prog = s.prog := by cases h <;> rfl

/-- No completed instruction writes the program buffer (R27). -/
theorem sameProgram (h : Completed i s t) : sameProgram s t := by
  rw [Machine.sameProgram, h.prog_eq]
  exact ⟨fun _ => rfl, rfl⟩

theorem params_eq (h : Completed i s t) : t.params = s.params := by cases h <;> rfl

/-- Only comparisons write the flag (R17). -/
theorem eqf_eq (h : Completed i s t) (hop : ¬ IsComparison i.opcode) : t.eqf = s.eqf := by
  cases h with
  | comparison b hcmp => exact absurd hcmp hop
  | _ => rfl

/-- Only DIV writes `rem` (R16). -/
theorem rem_eq (h : Completed i s t) (hop : i.opcode ≠ .div) : t.rem = s.rem := by
  cases h with
  | division d q r hdiv => exact absurd hdiv hop
  | _ => rfl

/-- Only ALOC writes the heap's length (R14). -/
theorem heapLen_eq (h : Completed i s t) (hop : i.opcode ≠ .aloc) : t.heapLen = s.heapLen := by
  cases h with
  | aloc n haloc => exact absurd haloc hop
  | _ => rfl

/-- Only LOAD, ADD, SUB, MUL and DIV write registers (R10). -/
theorem sameRegs (h : Completed i s t) (hop : ¬ WritesRegister i.opcode) : sameRegs s t := by
  cases h with
  | register d v hw => exact absurd (by tauto) hop
  | division d q r hdiv => exact absurd (by tauto) hop
  | _ => exact fun _ => rfl

/-- A heap within HEAP_MAX stays within it (R14). -/
theorem heapLen_le (h : Completed i s t) (hmax : s.params.heapMax ≤ 4294967295)
    (hs : s.heapLen.toNat ≤ s.params.heapMax) : t.heapLen.toNat ≤ s.params.heapMax := by
  cases h with
  | aloc n _ h0 hn =>
    have hlen := toNat_heapLen_heapResize (s := s) h0 (by omega)
    show (heapResize n s).heapLen.toNat ≤ s.params.heapMax
    omega
  | _ => exact hs

/-- Without a taken jump the next instruction is the one after the consumed bytes (R12, R54). -/
theorem pc_eq (h : Completed i s t) (hjmp : i.opcode ≠ .jmp) (hjmpf : i.opcode ≠ .jmpf) (hjmpb : i.opcode ≠ .jmpb)
    (hjmpe : i.opcode = .jmpe → s.eqf = false) : t.pc = npc (encode i).length s := by
  rw [length_encode]
  cases h with
  | register d v hop => obtain hop | hop | hop | hop := hop <;> rw [hop] <;> rfl
  | division d q r hop => rw [hop]; rfl
  | comparison b hop => obtain hop | hop | hop | hop | hop | hop := hop <;> rw [hop] <;> rfl
  | jump t hop => obtain hop | hop | hop := hop <;> contradiction
  | jmpe r hop =>
    rw [hop, latch_pc, setPc_pc, hjmpe hop]
    rfl
  | halt c hop => obtain ⟨hop, -⟩ | ⟨hop, -⟩ := hop <;> rw [hop] <;> rfl
  | aloc n hop => rw [hop]; rfl

end Completed

/-- Settles O43: what a completed step changed names its opcode, since every other opcode keeps that piece of state. -/
theorem eachStateElementHasItsOnlyWriters : Obligations.EachStateElementHasItsOnlyWriters := by
  intro s t i n hf hs
  rw [step_of_fetch hf] at hs
  have hc := completed_of_exec hs
  exact ⟨fun h => by_contra fun hop => h (hc.eqf_eq hop), fun h => by_contra fun hop => h (hc.rem_eq hop),
    fun h => by_contra fun hop => h (hc.heapLen_eq hop), fun h => by_contra fun hop => h (hc.sameRegs hop)⟩

/-- An instruction fetched in a state with a canonical buffer ends within the buffer (R12, R13). -/
theorem fetchInstr_within {s : State} {i : Instr} {n : Nat} (hwf : s.prog.wf) (h : fetchInstr s = .ok i n) :
    s.pc.toNat + (encode i).length ≤ s.prog.size := by
  obtain ⟨rfl, hbytes⟩ := decodeAt_ok_reaches h
  have hpos : 0 < (encode i).length := by rw [length_encode, Opcode.length]; omega
  obtain ⟨b, hb⟩ := hbytes (s.pc.toNat + (encode i).length - 1) (by omega) (by omega)
  have := Memory.lt_size_of_read hwf hb
  omega

/-- Settles O16: the fetched bytes lie in a buffer no longer than 2^32 - 1, so `pc` plus their number does not wrap. -/
theorem sequentialAdvanceNeverWraps : Obligations.SequentialAdvanceNeverWraps := by
  rintro s t i n ⟨⟨-, hprogMax, -⟩, hwf, hsize, -⟩ hf hjmp hjmpf hjmpb hjmpe hs
  rw [step_of_fetch hf] at hs
  have hpc := (completed_of_exec hs).pc_eq hjmp hjmpf hjmpb hjmpe
  have hin := fetchInstr_within hwf hf
  have hnat : t.pc.toNat = s.pc.toNat + (encode i).length := by
    rw [hpc, npc, BitVec.toNat_add, BitVec.toNat_ofNat]
    omega
  exact ⟨hnat, by omega⟩

/-- A state with the parameters and the buffer of a valid one is valid where its heap keeps within HEAP_MAX. -/
theorem State.Valid.of_same {s t : State} (h : s.Valid) (hparams : t.params = s.params) (hprog : t.prog = s.prog)
    (hheap : t.heapLen.toNat ≤ s.params.heapMax) : t.Valid := by
  obtain ⟨hp, hwf, hsize, -⟩ := h
  unfold State.Valid
  rw [hparams, hprog]
  exact ⟨hp, hwf, hsize, hheap⟩

/-- A completed step keeps the parameters and the validity of its state. -/
theorem step_keeps_valid {s t : State} (hv : s.Valid) (h : step s = .next t) : t.Valid ∧ t.params = s.params := by
  obtain ⟨i, n, -, hi⟩ := fetch_of_step_next h
  have hc := completed_of_exec hi
  have ⟨⟨_, _, hheapMax⟩, _, _, hheap⟩ := hv
  exact ⟨hv.of_same hc.params_eq hc.prog_eq (hc.heapLen_le hheapMax hheap), hc.params_eq⟩

/-- Settles O19: no completed step writes the parameters or the buffer, and ALOC resizes within HEAP_MAX. -/
theorem everyStepKeepsValidity : Obligations.EveryStepKeepsValidity := fun _ _ hv h => (step_keeps_valid hv h).1

/-- Settles O18: the constructed buffer is that of no bytes, the heap is empty, and the parameters are those given. -/
theorem constructedStateIsValid : Obligations.ConstructedStateIsValid := fun p hp =>
  ⟨hp, Memory.wf_ofBytes [], Nat.zero_le p.progMax, Nat.zero_le p.heapMax⟩

end Sys2Proof.Machine
end

section
/-! Pieces of state that an instruction does not read. Changing such a piece before the instruction is the same as
changing it after it, said once for any such update and then used for the flag, `rem` and the heap's length (R14, R16,
R17); the last-outcome status is overwritten by every step (R20). Settles O44, O45 and O15. -/

namespace Sys2Proof.Machine

/-- The heap's length replaced, whatever it was. -/
def setHeapLen (w : Word) (s : State) : State := { s with heapLen := w }

/-- The same answer with its state, if it has one, updated. -/
def mapNext (g : State → State) : Result → Result
  | .next t => .next (g t)
  | .fault k => .fault k
  | .refused r => .refused r

theorem mapNext_eq_next {g : State → State} {a : Result} {u : State} :
    mapNext g a = .next u ↔ ∃ t, a = .next t ∧ g t = u := by
  cases a <;> simp [mapNext]

theorem forgetEqf_mapNext_setEqf (f : Bool) (a : Result) : forgetEqf (mapNext (setEqf f) a) = forgetEqf a := by
  cases a <;> rfl

/-- An update of a piece of state other than `pc`, the buffer, the parameters, the registers and the last-outcome status:
it leaves what the shared operations read, and can be done before or after each of their writes. -/
structure Aside (g : State → State) : Prop where
  pc_eq (s : State) : (g s).pc = s.pc
  prog_eq (s : State) : (g s).prog = s.prog
  params_eq (s : State) : (g s).params = s.params
  readReg_eq (r : Reg) (s : State) : readReg r (g s) = readReg r s
  writeReg_comm (r : Reg) (v : Word) (s : State) : writeReg r v (g s) = g (writeReg r v s)
  setPc_comm (t : Word) (s : State) : setPc t (g s) = g (setPc t s)
  latch_comm (o : StepOutcome) (s : State) : latch o (g s) = g (latch o s)

theorem aside_setEqf (f : Bool) : Aside (setEqf f) := by constructor <;> intros <;> rfl
theorem aside_setRem (v : Word) : Aside (setRem v) := by constructor <;> intros <;> rfl
theorem aside_setHeapLen (w : Word) : Aside (setHeapLen w) := by constructor <;> intros <;> rfl

namespace Aside
variable {g : State → State} (hg : Aside g)
include hg

theorem npc_eq (n : Nat) (s : State) : npc n (g s) = npc n s := by simp only [npc, hg.pc_eq]

theorem signedOperand_eq (r : Reg) (s : State) : signedOperand r (g s) = signedOperand r s := by
  simp only [signedOperand, hg.readReg_eq]

theorem continueAt_comm (t : Word) (s : State) : continueAt t (g s) = mapNext g (continueAt t s) := by
  simp only [continueAt, mapNext, hg.setPc_comm, hg.latch_comm]

theorem continueAfter_comm (n : Nat) (s : State) : continueAfter n (g s) = mapNext g (continueAfter n s) := by
  simp only [continueAfter, hg.npc_eq, hg.continueAt_comm]

theorem haltStep_comm (c : HaltCause) (s : State) : haltStep c (g s) = mapNext g (haltStep c s) := by
  simp only [haltStep, mapNext, hg.npc_eq, hg.setPc_comm, hg.latch_comm]

theorem writeExact_comm (z : Int) (d : Reg) (s : State) : writeExact z d (g s) = mapNext g (writeExact z d s) := by
  unfold writeExact
  rw [hg.params_eq]
  cases overflow32 s.params.overflowPolicy z with
  | some v => simp only [hg.writeReg_comm, hg.continueAfter_comm]
  | none => rfl

/-- An instruction's answer takes the update along, where DIV, the comparisons, JMPE and ALOC do not touch with their own
reads and writes what is updated. -/
theorem exec_comm {i : Instr} {s : State}
    (hdiv : i.opcode = .div → ∀ v, setRem v (g s) = g (setRem v s))
    (hcmp : IsComparison i.opcode → ∀ b, setEqf b (g s) = g (setEqf b s))
    (hjmpe : i.opcode = .jmpe → (g s).eqf = s.eqf)
    (haloc : i.opcode = .aloc → (g s).heapLen = s.heapLen ∧ ∀ n, heapResize n (g s) = g (heapResize n s)) :
    exec i (g s) = mapNext g (exec i s) := by
  cases execShape i with
  | load r imm hop h => simp only [h, hg.writeReg_comm, hg.continueAfter_comm]
  | arith f a b d hop h => simp only [h, hg.signedOperand_eq, hg.writeExact_comm]
  | div a b d hop h =>
    simp only [h, execDiv, hg.signedOperand_eq, hdiv hop, hg.writeExact_comm, apply_ite (mapNext g)]
    rfl
  | compare rel a b hop h => simp only [h, compareWith, hg.signedOperand_eq, hcmp hop, hg.continueAfter_comm]
  | jump target r hop h => simp only [h, hg.pc_eq, hg.readReg_eq, hg.continueAt_comm]
  | jmpe r hop h =>
    simp only [h, execJmpe, targetOperand, hjmpe hop, hg.readReg_eq, hg.continueAt_comm, hg.continueAfter_comm,
      apply_ite (mapNext g)]
  | halt c hop h => simp only [h, hg.haltStep_comm]
  | aloc r hop h =>
    obtain ⟨hlen, hresize⟩ := haloc hop
    have hn : requestedLength r (g s) = requestedLength r s := by
      simp only [requestedLength, hg.signedOperand_eq, hlen]
    by_cases hrange : requestedLength r s < 0 ∨ (s.params.heapMax : Int) < requestedLength r s
    · simp only [h, execAloc, hn, hg.params_eq, if_pos hrange]
      rfl
    · simp only [h, execAloc, hn, hg.params_eq, if_neg hrange, hresize, hg.continueAfter_comm]

theorem fetchInstr_eq (s : State) : fetchInstr (g s) = fetchInstr s := by
  simp only [fetchInstr, hg.pc_eq, hg.prog_eq]

/-- So does the step's answer, if the instruction it fetches does: the decode does not see the update. -/
theorem step_comm {s : State} (h : ∀ i n, fetchInstr s = .ok i n → exec i (g s) = mapNext g (exec i s)) :
    step (g s) = mapNext g (step s) := by
  cases hf : fetchInstr s with
  | ok i n => rw [step_of_fetch ((hg.fetchInstr_eq s).trans hf), step_of_fetch hf, h i n hf]
  | error e => rw [step_of_error ((hg.fetchInstr_eq s).trans hf), step_of_error hf]; rfl

/-- The step's answer does not see the update at all, if the instruction it fetches does not. -/
theorem step_eq {s : State} {i : Instr} {n : Nat} (hf : fetchInstr s = .ok i n) (h : exec i (g s) = exec i s) :
    step (g s) = step s := by
  rw [step_of_fetch ((hg.fetchInstr_eq s).trans hf), step_of_fetch hf, h]

end Aside

/-- A property of the one instruction fetched is a property of whatever is fetched. -/
theorem forall_fetched {s : State} {i : Instr} {n : Nat} {P : Instr → Prop} (hf : fetchInstr s = .ok i n) (h : P i) :
    ∀ j m, fetchInstr s = .ok j m → P j := by
  intro j m hj
  rw [hf] at hj
  cases hj
  exact h

/-- A comparison's meaning has the comparisons' shape. -/
theorem exec_of_comparison {i : Instr} (h : IsComparison i.opcode) :
    ∃ rel a b, ∀ s, exec i s = compareWith rel a b s := by
  cases execShape i with
  | compare rel a b _ hi => exact ⟨rel, a, b, hi⟩
  | _ => grind

theorem exec_of_div {i : Instr} (h : i.opcode = .div) : ∃ a b d, ∀ s, exec i s = execDiv a b d s := by
  cases execShape i with
  | div a b d _ hi => exact ⟨a, b, d, hi⟩
  | _ => grind

theorem exec_of_aloc {i : Instr} (h : i.opcode = .aloc) : ∃ r, ∀ s, exec i s = execAloc r s := by
  cases execShape i with
  | aloc r _ hi => exact ⟨r, hi⟩
  | _ => grind

/-- A comparison overwrites the flag without reading it (R83). -/
theorem step_setEqf_of_comparison {s : State} {i : Instr} {n : Nat} (f : Bool) (hf : fetchInstr s = .ok i n)
    (h : IsComparison i.opcode) : step (setEqf f s) = step s := by
  obtain ⟨rel, a, b, hi⟩ := exec_of_comparison h
  exact (aside_setEqf f).step_eq hf (by rw [hi, hi]; rfl)

/-- An instruction that is neither JMPE nor a comparison hands the flag on (R17). -/
theorem step_setEqf {s : State} {i : Instr} {n : Nat} (f : Bool) (hf : fetchInstr s = .ok i n)
    (hjmpe : i.opcode ≠ .jmpe) (hcmp : ¬ IsComparison i.opcode) :
    step (setEqf f s) = mapNext (setEqf f) (step s) :=
  (aside_setEqf f).step_comm <| forall_fetched hf <|
    (aside_setEqf f).exec_comm (fun _ _ => rfl) (fun h => absurd h hcmp) (fun h => absurd h hjmpe)
      (fun _ => ⟨rfl, fun _ => rfl⟩)

/-- DIV overwrites `rem` without reading it (R73). -/
theorem step_setRem_of_div {s : State} {i : Instr} {n : Nat} (v : Word) (hf : fetchInstr s = .ok i n)
    (h : i.opcode = .div) : step (setRem v s) = step s := by
  obtain ⟨a, b, d, hi⟩ := exec_of_div h
  exact (aside_setRem v).step_eq hf (by rw [hi, hi]; rfl)

/-- Where no DIV is fetched, the step hands `rem` on (R16). -/
theorem step_setRem {s : State} (v : Word) (h : ∀ i n, fetchInstr s = .ok i n → i.opcode ≠ .div) :
    step (setRem v s) = mapNext (setRem v) (step s) :=
  (aside_setRem v).step_comm fun i n hf =>
    (aside_setRem v).exec_comm (fun hdiv => absurd hdiv (h i n hf)) (fun _ _ => rfl) (fun _ => rfl)
      (fun _ => ⟨rfl, fun _ => rfl⟩)

/-- Where no ALOC is fetched, the step hands the heap's length on (R14). -/
theorem step_setHeapLen {s : State} (w : Word) (h : ∀ i n, fetchInstr s = .ok i n → i.opcode ≠ .aloc) :
    step (setHeapLen w s) = mapNext (setHeapLen w) (step s) :=
  (aside_setHeapLen w).step_comm fun i n hf =>
    (aside_setHeapLen w).exec_comm (fun _ _ => rfl) (fun _ _ => rfl) (fun _ => rfl)
      (fun haloc => absurd haloc (h i n hf))

/-- Settles O44: a comparison does not see the flag, and every other instruction but JMPE hands it on. -/
theorem onlyJmpeReadsTheFlag : Obligations.OnlyJmpeReadsTheFlag := by
  intro s f i n hf hjmpe
  refine ⟨?_, step_setEqf_of_comparison f hf, fun heq hneq hgte hlte hgt hlt u hu => ?_⟩
  · by_cases hcmp : IsComparison i.opcode
    · rw [step_setEqf_of_comparison f hf hcmp]
      rfl
    · rw [step_setEqf f hf hjmpe hcmp]
      exact (forgetEqf_mapNext_setEqf f (step s)).symm
  · have hcmp : ¬ IsComparison i.opcode := by simp [heq, hneq, hgte, hlte, hgt, hlt]
    rw [step_setEqf f hf hjmpe hcmp] at hu
    obtain ⟨t, -, rfl⟩ := mapNext_eq_next.1 hu
    rfl

/-- A fault does not depend on `rem`. -/
theorem step_setRem_fault {s : State} {k : Fault} (v : Word) (h : step s = .fault k) : step (setRem v s) = .fault k := by
  by_cases hdiv : ∃ i n, fetchInstr s = .ok i n ∧ i.opcode = .div
  · obtain ⟨i, n, hf, hop⟩ := hdiv
    rw [step_setRem_of_div v hf hop, h]
  · rw [step_setRem v fun i n hf hop => hdiv ⟨i, n, hf, hop⟩, h]
    rfl

/-- ALOC's only fault is HeapRange (R95). -/
theorem heapRange_of_aloc_fault {s : State} {i : Instr} {k : Fault} (hop : i.opcode = .aloc)
    (h : exec i s = .fault k) : k = .heapRange := by
  obtain ⟨r, hi⟩ := exec_of_aloc hop
  rw [hi] at h
  obtain ⟨-, h'⟩ | ⟨-, h'⟩ := execAloc_cases r s
  · rw [h'] at h
    cases h
    rfl
  · rw [h'] at h
    cases h

/-- A fault other than HeapRange does not depend on the heap's length. -/
theorem step_setHeapLen_fault {s : State} {k : Fault} (w : Word) (hk : k ≠ .heapRange) (h : step s = .fault k) :
    step (setHeapLen w s) = .fault k := by
  have hop (i : Instr) (n : Nat) (hf : fetchInstr s = .ok i n) : i.opcode ≠ .aloc := by
    rw [step_of_fetch hf] at h
    exact fun hop => hk (heapRange_of_aloc_fault hop h)
  rw [step_setHeapLen w hop, h]
  rfl

/-- Settles O45: a DIV does not see `rem` and every other instruction hands it on; every instruction but ALOC hands the
heap's length on. -/
theorem remainderAndHeapLengthAreNotOperands : Obligations.RemainderAndHeapLengthAreNotOperands := by
  refine ⟨fun s t v i n hf hs => ?_, fun s v k h => step_setRem_fault v h, fun s t w i n hf hop hs => ?_,
    fun s w k hk h => step_setHeapLen_fault w hk h⟩
  · by_cases hdiv : i.opcode = .div
    · exact ⟨t, (step_setRem_of_div v hf hdiv).trans hs, fun _ => rfl, rfl, rfl, rfl, rfl, rfl, rfl, fun _ => rfl,
        fun h => absurd hdiv h⟩
    · refine ⟨setRem v t, ?_, fun _ => rfl, rfl, rfl, rfl, rfl, rfl, rfl, fun h => absurd h hdiv, fun _ => rfl⟩
      exact (step_setRem v (forall_fetched hf hdiv)).trans (by rw [hs]; rfl)
  · exact (step_setHeapLen w (forall_fetched hf hop)).trans (by rw [hs]; rfl)

/-- No instruction reads the last-outcome status: each completion overwrites it. -/
theorem exec_lastOutcome (i : Instr) (s : State) (o : Option StepOutcome) :
    exec i { s with lastOutcome := o } = exec i s := by
  cases execShape i with
  | load _ _ _ h | arith _ _ _ _ _ h | div _ _ _ _ h | compare _ _ _ _ h | jump _ _ _ h | jmpe _ _ h | halt _ _ h
  | aloc _ _ h =>
    rw [h, h]
    rfl

/-- Settles O15: the decode reads the buffer and `pc`, and no instruction reads the status. -/
theorem lastOutcomeIsReadByNoStep : Obligations.LastOutcomeIsReadByNoStep := by
  intro s o
  have hfetch : fetchInstr { s with lastOutcome := o } = fetchInstr s := rfl
  cases hf : fetchInstr s with
  | ok i n => rw [step_of_fetch (hfetch.trans hf), step_of_fetch hf, exec_lastOutcome]
  | error e => rw [step_of_error (hfetch.trans hf), step_of_error hf]

end Sys2Proof.Machine
end

section
/-! ALOC's result, and the frame of the five instructions with a destination register (R10, R67, R68, R73, R90).
Settles O37 and O39. -/

namespace Sys2Proof.Machine

theorem heapByte_of_lt {s : State} {a : Nat} (h : a < s.heapLen.toNat) : heapByte s a = some 0#8 := if_pos h

theorem heapByte_of_le {s : State} {a : Nat} (h : s.heapLen.toNat ≤ a) : heapByte s a = none :=
  if_neg (Nat.not_lt_of_le h)

/-- ALOC within the range resizes the heap and goes on (R90). -/
theorem execAloc_next {r : Reg} {s : State} (h0 : 0 ≤ requestedLength r s)
    (hmax : requestedLength r s ≤ s.params.heapMax) :
    execAloc r s = .next (latch .continued (setPc (npc 4 s) (heapResize (requestedLength r s) s))) := by
  obtain ⟨hrange, -⟩ | ⟨-, h⟩ := execAloc_cases r s
  · omega
  · exact h

/-- Settles O37: the resize writes the requested length, and heap bytes are read off the length. -/
theorem alocResizesTheHeap : Obligations.AlocResizesTheHeap := by
  intro r p q s hheapMax h0 hmax
  have hlen := toNat_heapLen_heapResize (s := s) h0 (by omega)
  exact ⟨_, execAloc_next h0 hmax, hlen, fun _ => heapByte_of_lt, fun _ => heapByte_of_le, rfl, rfl⟩

/-- A completion that writes register `d`, whatever else it does to `pc` and the status, keeps every other register. -/
theorem sameRegsExcept_writeReg (d : Reg) (v t : Word) (o : StepOutcome) (s : State) :
    sameRegsExcept d s (latch o (setPc t (writeReg d v s))) := fun _ hr => readReg_writeReg_other hr v s

theorem sameRegsExcept_of_writeExact {z : Int} {d : Reg} {s t : State} (h : writeExact z d s = .next t) :
    sameRegsExcept d s t := by
  rw [writeExact_eq_next h]
  exact sameRegsExcept_writeReg d _ _ _ s

/-- Settles O39: the write names its destination; the rest is what any completed instruction keeps by its opcode. -/
theorem registerWritersFrame : Obligations.RegisterWritersFrame := by
  intro i d s t hform h
  have hc := completed_of_exec h
  have hregs : sameRegsExcept d s t := by
    obtain ⟨imm, rfl⟩ | ⟨a, b, rfl⟩ | ⟨a, b, rfl⟩ | ⟨a, b, rfl⟩ | ⟨a, b, rfl⟩ := hform
    · rw [continueAfter_eq_next.1 h]
      exact sameRegsExcept_writeReg d _ _ _ s
    · exact sameRegsExcept_of_writeExact h
    · exact sameRegsExcept_of_writeExact h
    · exact sameRegsExcept_of_writeExact h
    · obtain ⟨q, r, rfl⟩ := execDiv_eq_next h
      exact sameRegsExcept_writeReg d _ _ _ (setRem r s)
  have hop : (¬ IsComparison i.opcode ∧ i.opcode ≠ .aloc) ∧ ((∀ a b, i ≠ .div a b d) → i.opcode ≠ .div) := by
    obtain ⟨imm, rfl⟩ | ⟨a, b, rfl⟩ | ⟨a, b, rfl⟩ | ⟨a, b, rfl⟩ | ⟨a, b, rfl⟩ := hform <;>
      simp [Instr.opcode, IsComparison]
  obtain ⟨⟨hcmp, haloc⟩, hdiv⟩ := hop
  have hheap := hc.heapLen_eq haloc
  exact ⟨hregs, hc.eqf_eq hcmp, fun hne => hc.rem_eq (hdiv hne), ⟨heapByte_congr hheap, hheap⟩, hc.sameProgram,
    hc.params_eq⟩

end Sys2Proof.Machine
end

section
/-! The host's operations keep a valid state valid and its parameters as they are (R59, R60, R63, R65), a run by
induction over its fuel. Settles O20. -/

namespace Sys2Proof.Machine

/-- The last-outcome status is no part of validity. -/
theorem valid_latch {s : State} (o : StepOutcome) (h : s.Valid) : (latch o s).Valid := h

/-- Append keeps the canonical form and refuses what would exceed PROG_MAX (R59). -/
theorem append_keeps_valid (r : Record) {s : State} (hv : s.Valid) :
    (append r s).2.Valid ∧ (append r s).2.params = s.params := by
  obtain ⟨-, h⟩ | ⟨hfits, h⟩ := append_cases r s
  · rw [h]
    exact ⟨hv, rfl⟩
  · obtain ⟨hp, hwf, -, hheap⟩ := hv
    rw [h]
    refine ⟨⟨hp, Memory.wf_append hwf r.bytes, ?_, hheap⟩, rfl⟩
    rw [Memory.size_append]
    exact hfits

/-- Run-once gives the state of a completed step, or the old state with the fault latched (R56). -/
theorem runOnce_keeps_valid {s t : State} {o : StepOutcome} (hv : s.Valid) (h : runOnce s = .ok (o, t)) :
    t.Valid ∧ t.params = s.params := by
  cases hs : step s with
  | next u =>
    rw [runOnce_of_next hs] at h
    cases h
    exact step_keeps_valid hv hs
  | fault k =>
    rw [runOnce_of_fault hs] at h
    cases h
    exact ⟨valid_latch _ hv, rfl⟩
  | refused r => simp [runOnce, hs] at h

/-- The loop of R57 ends in its own state or in one that a chain of run-onces leads to. -/
theorem runLoop_keeps_valid {fuel n : Nat} {budget : Option Nat} {s t : State} {r : RunResult} (hv : s.Valid)
    (h : runLoop fuel budget n s = some (r, t)) : t.Valid ∧ t.params = s.params := by
  induction fuel generalizing n s with
  | zero =>
    unfold runLoop at h
    split_ifs at h <;> cases h <;> exact ⟨hv, rfl⟩
  | succ fuel ih =>
    unfold runLoop at h
    split_ifs at h
    · cases h
      exact ⟨hv, rfl⟩
    · cases h
      exact ⟨hv, rfl⟩
    · cases ho : runOnce s with
      | error e =>
        simp only [ho] at h
        cases h
        exact ⟨hv, rfl⟩
      | ok x =>
        obtain ⟨o, u⟩ := x
        have hu := runOnce_keeps_valid hv ho
        cases o with
        | continued =>
          simp only [ho] at h
          obtain ⟨ht, hparams⟩ := ih hu.1 h
          exact ⟨ht, hparams.trans hu.2⟩
        | halted c | faulted k =>
          simp only [ho] at h
          cases h
          exact hu

/-- An accepted preload is within the ranges of R65. -/
theorem preload_keeps_valid {p : Preload} {s t : State} (hv : s.Valid) (h : preload p s = some t) :
    t.Valid ∧ t.params = s.params := by
  cases p with
  | reg | pc | eqf | rem =>
    cases h
    exact ⟨hv, rfl⟩
  | heapLen v =>
    obtain ⟨hle, rfl⟩ : v.toNat ≤ s.params.heapMax ∧ { s with heapLen := v } = t := by simpa [preload] using h
    exact ⟨hv.of_same rfl rfl hle, rfl⟩
  | prog bs =>
    obtain ⟨hle, rfl⟩ : bs.length ≤ s.params.progMax ∧ { s with prog := Memory.ofBytes bs } = t := by
      simpa [preload] using h
    obtain ⟨hp, -, -, hheap⟩ := hv
    exact ⟨⟨hp, Memory.wf_ofBytes bs, (Memory.size_ofBytes bs).trans_le hle, hheap⟩, rfl⟩

/-- Settles O20: one lemma per operation; construction keeps the parameters, and inspection and a rejected preload
change nothing. -/
theorem everyHostOperationKeepsValidity : Obligations.EveryHostOperationKeepsValidity := by
  intro fuel op s t reply hv h
  cases op with
  | construct =>
    cases h
    exact ⟨constructedStateIsValid s.params hv.1, rfl⟩
  | append r =>
    cases h
    exact append_keeps_valid r hv
  | runOnce =>
    cases ho : runOnce s with
    | ok x =>
      simp only [perform, ho] at h
      cases h
      exact runOnce_keeps_valid hv ho
    | error e =>
      simp only [perform, ho] at h
      cases h
      exact ⟨hv, rfl⟩
  | run budget =>
    cases hr : run fuel budget s with
    | some x =>
      simp only [perform, hr] at h
      cases h
      exact runLoop_keeps_valid hv hr
    | none => simp [perform, hr] at h
  | inspect i =>
    cases h
    exact ⟨hv, rfl⟩
  | preload p =>
    cases hp : preload p s with
    | some u =>
      simp only [perform, hp] at h
      cases h
      exact preload_keeps_valid hv hp
    | none =>
      simp only [perform, hp] at h
      cases h
      exact ⟨hv, rfl⟩

end Sys2Proof.Machine
end

section
/-! What a visit of each phase of the dispatch FSM leaves of the architectural state (R62). Settles O56. -/

namespace Sys2Proof.Machine

@[simp] theorem Fsm.enterOpcode_engine (f : Fsm) : f.enterOpcode.engine = f.engine := rfl
@[simp] theorem Fsm.fail_engine (k : Fault) (f : Fsm) : (f.fail k).engine = f.engine := rfl
@[simp] theorem Fsm.nextField_engine (rest : List FieldKind) (f : Fsm) : (f.nextField rest).engine = f.engine := rfl

@[simp] theorem Fsm.tickIdle_engine (f : Fsm) : f.tickIdle.engine = f.engine := by
  unfold Fsm.tickIdle
  split
  · rfl
  · rfl
  · split_ifs <;> rfl

@[simp] theorem Fsm.tickOpcode_engine (f : Fsm) : f.tickOpcode.engine = f.engine := by
  unfold Fsm.tickOpcode
  split <;> rfl

@[simp] theorem Fsm.tickField_engine (f : Fsm) : f.tickField.engine = f.engine := by
  unfold Fsm.tickField
  split
  · rfl
  · split
    · rfl
    · split
      · split <;> rfl
      · rfl
      · rfl

@[simp] theorem Fsm.tickDone_engine (o : StepOutcome) (f : Fsm) : (f.tickDone o).engine = f.engine := by
  unfold Fsm.tickDone
  split
  · cases o <;> rfl
  · rfl
  · rfl

@[simp] theorem Fsm.tickFault_engine (k : Fault) (f : Fsm) : (f.tickFault k).engine = latch (.faulted k) f.engine := rfl

/-- Settles O56: phase by phase. -/
theorem fsmWritesOnlyInExecute : Obligations.FsmWritesOnlyInExecute := by
  intro f hexec
  refine ⟨fun hfault => ?_, fun k hk => ?_⟩
  · cases hp : f.phase with
    | idle => simp [Fsm.tick, hp]
    | opcode => simp [Fsm.tick, hp]
    | field => simp [Fsm.tick, hp]
    | execute => exact absurd hp hexec
    | done o => simp [Fsm.tick, hp]
    | fault k => exact absurd hp (hfault k)
  · simp [Fsm.tick, hk, latch]

end Sys2Proof.Machine
end

section
/-! The program buffer against the step, the LOAD record and append (R24, R27, R34, R59, R67). Settles O21, O23 and O48. -/

namespace Sys2Proof

/-- The bytes 0, r, hi, lo are a LOAD with a big-endian immediate (R38, R41, R43). -/
theorem decodeAt_load {rd : ByteSource} {p : Nat} {r : Reg} {hi lo : Byte} (h0 : rd p = some 0#8)
    (h1 : rd (p + 1) = some (regByte r)) (h2 : rd (p + 2) = some hi) (h3 : rd (p + 3) = some lo) :
    decodeAt rd p = .ok (.load r (bigEndian hi lo)) (p + 4) := by
  have hreg : fetchReg rd (p + 1) = .ok r (p + 2) := fetchReg_eq_ok.2 ⟨h1, rfl⟩
  have himm : fetchHalf rd (p + 2) = .ok (bigEndian hi lo) (p + 4) :=
    fetchHalf_eq_ok.2 ⟨by simpa using h2, by simpa using h3, rfl⟩
  have hop : Opcode.ofByte 0#8 = .load := rfl
  simp [decodeAt, fetchByte_of_some h0, hop, fetchOperands, fetchRI, hreg, himm]

end Sys2Proof

namespace Sys2Proof.Machine

/-- Every byte of a heap is zero (R15). -/
theorem eq_zero_of_heapByte {s : State} {a : Nat} {v : Byte} (h : heapByte s a = some v) : v = 0#8 := by
  by_cases ha : a < s.heapLen.toNat
  · rw [heapByte_of_lt ha] at h
    exact (Option.some.inj h).symm
  · rw [heapByte_of_le (Nat.le_of_not_lt ha)] at h
    cases h

/-- Settles O21: no completed instruction writes the buffer, and a heap byte is zero before and after. -/
theorem noStepWritesMemory : Obligations.NoStepWritesMemory := by
  intro s t h
  obtain ⟨i, n, -, hi⟩ := fetch_of_step_next h
  have hc := completed_of_exec hi
  exact ⟨hc.sameProgram, hc.prog_eq, fun a v w hv hw => (eq_zero_of_heapByte hw).trans (eq_zero_of_heapByte hv).symm⟩

/-- Zero extension keeps the value (R41). -/
@[simp] theorem toNat_zext32 (v : Half) : (zext32 v).toNat = v.toNat :=
  BitVec.toNat_setWidth_of_le (by decide)

/-- Settles O23: the four bytes decode to a LOAD, which writes its zero-extended immediate. -/
theorem loadBytesAreBigEndian : Obligations.LoadBytesAreBigEndian := by
  intro s r hi lo h0 h1 h2 h3
  have hf : fetchInstr s = .ok (.load r (bigEndian hi lo)) (s.pc.toNat + 4) := decodeAt_load h0 h1 h2 h3
  refine ⟨_, step_of_fetch hf, ?_, rfl⟩
  rw [readReg_latch, readReg_setPc, readReg_writeReg_same, toNat_zext32, toNat_bigEndian]

/-- Settles O48: the two answers of append exclude each other; the bytes are read off the extended buffer. -/
theorem appendAddsTheRecordOrRefuses : Obligations.AppendAddsTheRecordOrRefuses := by
  intro r s hwf
  obtain ⟨hfull, h⟩ | ⟨hfits, h⟩ := append_cases r s
  · exact ⟨fun _ => h, fun hfits => absurd hfits (Nat.not_le_of_lt hfull)⟩
  · have hnew := Memory.read_append_new hwf r.bytes
    exact ⟨fun hfull => absurd hfits (Nat.not_le_of_lt hfull), fun _ => ⟨_, h, Memory.size_append _ _,
      fun _ => Memory.read_append_old hwf r.bytes, hnew 0, hnew 1, hnew 2, hnew 3⟩⟩

end Sys2Proof.Machine
end

section
/-! Decode and encode agree (R38, R43, R44). One equivalence, `decodeAt_eq_ok`, says what a decode answers; both
directions of the round trip are read off it. Settles O1 and O2. -/

namespace Sys2Proof

/-- The bytes `bs` stand in the source from `p` on. -/
def BytesAt (rd : ByteSource) (p : Nat) (bs : List Byte) : Prop := ∀ k, k < bs.length → rd (p + k) = bs[k]?

@[simp] theorem bytesAt_nil (rd : ByteSource) (p : Nat) : BytesAt rd p [] := fun k hk => absurd hk (Nat.not_lt_zero k)

@[simp] theorem bytesAt_cons {rd : ByteSource} {p : Nat} {b : Byte} {bs : List Byte} :
    BytesAt rd p (b :: bs) ↔ rd p = some b ∧ BytesAt rd (p + 1) bs := by
  constructor
  · intro h
    refine ⟨h 0 (Nat.succ_pos _), fun k hk => ?_⟩
    rw [Nat.add_assoc, Nat.add_comm 1]
    exact h (k + 1) (Nat.succ_lt_succ hk)
  · rintro ⟨hb, hbs⟩ k hk
    cases k with
    | zero => exact hb
    | succ k =>
      rw [Nat.add_comm k, ← Nat.add_assoc, Nat.add_comm 1]
      exact hbs k (Nat.lt_of_succ_lt_succ hk)

/-! ### What each format reads -/

section
variable {rd : ByteSource} {p n : Nat} {i : Instr}

theorem fetchR_eq_ok {mk : Reg → Instr} :
    fetchR mk rd p = .ok i n ↔ ∃ r, mk r = i ∧ n = p + 1 ∧ BytesAt rd p [regByte r] := by
  simp only [fetchR, Fetched.andThen_eq_ok, fetchReg_eq_ok, Fetched.ok.injEq, bytesAt_cons,
    bytesAt_nil]
  grind

theorem fetchRI_eq_ok {mk : Reg → Half → Instr} :
    fetchRI mk rd p = .ok i n ↔
      ∃ r imm, mk r imm = i ∧ n = p + 3 ∧ BytesAt rd p [regByte r, highByte imm, lowByte imm] := by
  simp only [fetchRI, Fetched.andThen_eq_ok, fetchReg_eq_ok, fetchHalf_eq_ok, Fetched.ok.injEq, bytesAt_cons,
    bytesAt_nil]
  grind

theorem fetchRRR_eq_ok {mk : Reg → Reg → Reg → Instr} :
    fetchRRR mk rd p = .ok i n ↔
      ∃ a b d, mk a b d = i ∧ n = p + 3 ∧ BytesAt rd p [regByte a, regByte b, regByte d] := by
  simp only [fetchRRR, Fetched.andThen_eq_ok, fetchReg_eq_ok, Fetched.ok.injEq, bytesAt_cons,
    bytesAt_nil]
  grind

theorem fetchRRP_eq_ok {mk : Reg → Reg → Byte → Instr} :
    fetchRRP mk rd p = .ok i n ↔
      ∃ a b x, mk a b x = i ∧ n = p + 3 ∧ BytesAt rd p [regByte a, regByte b, x] := by
  simp only [fetchRRP, Fetched.andThen_eq_ok, fetchReg_eq_ok, fetchByte_eq_ok, Fetched.ok.injEq, bytesAt_cons,
    bytesAt_nil]
  grind

theorem fetchRPP_eq_ok {mk : Reg → Byte → Byte → Instr} :
    fetchRPP mk rd p = .ok i n ↔
      ∃ r x y, mk r x y = i ∧ n = p + 3 ∧ BytesAt rd p [regByte r, x, y] := by
  simp only [fetchRPP, Fetched.andThen_eq_ok, fetchReg_eq_ok, fetchByte_eq_ok, Fetched.ok.injEq, bytesAt_cons,
    bytesAt_nil]
  grind

end

/-! ### The opcode byte -/

/-- Every instruction has the shape its law gives it (R37, R39, R43). -/
theorem encodeShape (i : Instr) : Laws.EncodeShape.Statement i := by
  cases i with
  | unassigned18to19 o => exact Laws.EncodeShape.unassigned18to19 o
  | unassigned20to23 o => exact Laws.EncodeShape.unassigned20to23 o
  | unassigned24to31 o => exact Laws.EncodeShape.unassigned24to31 o
  | unassigned32to63 o => exact Laws.EncodeShape.unassigned32to63 o
  | unassigned64to127 o => exact Laws.EncodeShape.unassigned64to127 o
  | unassigned128to255 o => exact Laws.EncodeShape.unassigned128to255 o
  | _ => exact ⟨rfl, _, _, rfl, rfl⟩

/-- Up to 17 the opcode of a byte is the table's entry of that number (R43, R52). -/
theorem getElem?_opcodeTable {b : Byte} (h : b.toNat < 18) : opcodeTable[b.toNat]? = some (Opcode.ofByte b) := by
  have hb : b.toNat < opcodeTable.length := h
  simp [Opcode.ofByte, List.getElem?_eq_getElem hb]

/-- A byte that maps to another opcode than ILLEGAL stands in the table. -/
theorem lt_of_ofByte_ne_illegal {b : Byte} (h : Opcode.ofByte b ≠ .illegal) : b.toNat < 18 := by
  by_contra hb
  exact h (ofByte_of_large (Nat.le_of_not_lt hb))

theorem opcodeTable_nodup : opcodeTable.Nodup := by decide

/-- ILLEGAL aside, no two bytes map to the same opcode: the table lists none twice (R43). -/
theorem eq_of_ofByte_eq {b c : Byte} (h : Opcode.ofByte b = Opcode.ofByte c) (hne : Opcode.ofByte b ≠ .illegal) :
    b = c := by
  have hb := lt_of_ofByte_ne_illegal hne
  have hc := lt_of_ofByte_ne_illegal (h ▸ hne)
  apply BitVec.eq_of_toNat_eq
  apply (List.getElem?_inj (l := opcodeTable) hb opcodeTable_nodup).1
  rw [getElem?_opcodeTable hb, getElem?_opcodeTable hc, h]

/-- The bytes that map to ILLEGAL (R45). -/
theorem ofByte_eq_illegal_iff {b : Byte} : Opcode.ofByte b = .illegal ↔ b.toNat = 16 ∨ 18 ≤ b.toNat := by
  constructor
  · intro h
    by_contra hb
    have hlt : b.toNat < 18 := by omega
    have h16 : opcodeTable[b.toNat]? = opcodeTable[16]? := (getElem?_opcodeTable hlt).trans (congrArg some h)
    have := (List.getElem?_inj (l := opcodeTable) hlt opcodeTable_nodup).1 h16
    omega
  · rintro (h | h)
    · rw [show b = 16#8 from BitVec.eq_of_toNat_eq h]
      rfl
    · exact ofByte_of_large h

/-- A word is its high bits followed by its low bits. -/
theorem append_setWidth {n m : Nat} {h : BitVec n} {b : BitVec (n + m)} (hb : b.toNat / 2 ^ m = h.toNat) :
    h ++ b.setWidth m = b := by
  apply BitVec.eq_of_toNat_eq
  rw [BitVec.toNat_append, Nat.shiftLeft_eq, Nat.mul_comm, ← Nat.two_pow_add_eq_or_of_lt (BitVec.isLt _),
    BitVec.toNat_setWidth, ← hb, Nat.div_add_mod]

/-- A byte that maps to ILLEGAL is the one byte of its instruction: the row keeps the byte's free bits (R43, R77). -/
theorem encode_illegalOfByte {b : Byte} (h : Opcode.ofByte b = .illegal) : encode (illegalOfByte b) = [b] := by
  have hb := ofByte_eq_illegal_iff.1 h
  have hlt := b.isLt
  unfold illegalOfByte
  split_ifs
  · have : b = 16#8 := BitVec.eq_of_toNat_eq (show b.toNat = 16 by omega)
    rw [this, encode]
  · exact congrArg List.singleton (append_setWidth (n := 7) (m := 1) (show b.toNat / 2 = 9 by omega))
  · exact congrArg List.singleton (append_setWidth (n := 6) (m := 2) (show b.toNat / 4 = 5 by omega))
  · exact congrArg List.singleton (append_setWidth (n := 5) (m := 3) (show b.toNat / 8 = 3 by omega))
  · exact congrArg List.singleton (append_setWidth (n := 3) (m := 5) (show b.toNat / 32 = 1 by omega))
  · exact congrArg List.singleton (append_setWidth (n := 2) (m := 6) (show b.toNat / 64 = 1 by omega))
  · exact congrArg List.singleton (append_setWidth (n := 1) (m := 7) (show b.toNat / 128 = 1 by omega))

/-- The row of an ILLEGAL instruction's byte, with its free bits, is that instruction. -/
theorem illegalOfByte_of_encode {i : Instr} {b : Byte} {rest : List Byte} (he : encode i = b :: rest)
    (h : i.opcode = .illegal) : illegalOfByte b = i := by
  cases i with
  | illegal =>
    cases he
    rfl
  | unassigned18to19 o | unassigned20to23 o | unassigned24to31 o | unassigned32to63 o | unassigned64to127 o
  | unassigned128to255 o =>
    cases he
    revert o
    decide
  | _ => cases h

/-! ### The whole decode -/

section
variable {rd : ByteSource} {p n : Nat} {i : Instr}

/-- The operands of an opcode are the bytes after the opcode byte of an instruction of that opcode; for ILLEGAL, of the
instruction the opcode byte itself names. -/
theorem fetchOperands_eq_ok {b : Byte} {op : Opcode} :
    fetchOperands rd b p op = .ok i n ↔
      i.opcode = op ∧ (op = .illegal → illegalOfByte b = i) ∧ n = p + op.fields.length ∧
        BytesAt rd p (encode i).tail := by
  constructor
  · intro h
    obtain ⟨hn, -, hop⟩ := consumes_fetchOperands rd b p op i n h
    refine ⟨hop, ?_, hn, ?_⟩
    · rintro rfl
      cases h
      rfl
    · cases op with
      | load =>
        obtain ⟨r, imm, rfl, -, hb⟩ := fetchRI_eq_ok.1 h
        exact hb
      | add | sub | mul | div =>
        obtain ⟨x, y, z, rfl, -, hb⟩ := fetchRRR_eq_ok.1 h
        exact hb
      | eq | neq | gte | lte | gt | lt =>
        obtain ⟨x, y, z, rfl, -, hb⟩ := fetchRRP_eq_ok.1 h
        exact hb
      | aloc =>
        obtain ⟨x, y, z, rfl, -, hb⟩ := fetchRPP_eq_ok.1 h
        exact hb
      | jmp | jmpf | jmpb | jmpe =>
        obtain ⟨r, rfl, -, hb⟩ := fetchR_eq_ok.1 h
        exact hb
      | hlt =>
        cases h
        exact bytesAt_nil rd p
      | illegal =>
        have hone : (encode i).length = 1 := (length_encode i).trans (congrArg Opcode.length hop)
        obtain ⟨c, hc⟩ := List.length_eq_one_iff.1 hone
        rw [hc]
        exact bytesAt_nil rd p
  · rintro ⟨rfl, hill, rfl, hb⟩
    cases i with
    | load => exact fetchRI_eq_ok.2 ⟨_, _, rfl, rfl, hb⟩
    | add | sub | mul | div => exact fetchRRR_eq_ok.2 ⟨_, _, _, rfl, rfl, hb⟩
    | eq | neq | gte | lte | gt | lt => exact fetchRRP_eq_ok.2 ⟨_, _, _, rfl, rfl, hb⟩
    | aloc => exact fetchRPP_eq_ok.2 ⟨_, _, _, rfl, rfl, hb⟩
    | jmp | jmpf | jmpb | jmpe => exact fetchR_eq_ok.2 ⟨_, rfl, rfl, hb⟩
    | hlt => rfl
    | _ => exact congrArg (Fetched.ok · p) (hill rfl)

/-- What a decode answers: the instruction whose bytes stand there, and the fetch pointer right after them. -/
theorem decodeAt_eq_ok : decodeAt rd p = .ok i n ↔ n = p + (encode i).length ∧ BytesAt rd p (encode i) := by
  obtain ⟨hlen, c, rest, he, hc⟩ := encodeShape i
  rw [hlen, Opcode.length, ← Nat.add_assoc, he, bytesAt_cons, decodeAt, Fetched.andThen_eq_ok]
  constructor
  · rintro ⟨b, q, hfetch, hi⟩
    obtain ⟨hb, rfl⟩ := fetchByte_eq_ok.1 hfetch
    obtain ⟨hop, hill, hn, hrest⟩ := fetchOperands_eq_ok.1 hi
    have hbc : b = c := by
      by_cases h : Opcode.ofByte b = .illegal
      · have hone := encode_illegalOfByte h
        rw [hill h, he] at hone
        exact (List.cons.inj hone).1.symm
      · exact eq_of_ofByte_eq (hop.symm.trans hc.symm) h
    rw [he] at hrest
    exact ⟨by rw [hn, hop], by rw [hb, hbc], hrest⟩
  · rintro ⟨hn, hb, hrest⟩
    refine ⟨c, p + 1, fetchByte_of_some hb, fetchOperands_eq_ok.2 ⟨hc.symm, fun h => ?_, by rw [hn, hc], ?_⟩⟩
    · exact illegalOfByte_of_encode he (hc.symm.trans h)
    · rw [he]
      exact hrest

/-- What a decode answers, by its opcode byte (R37, R52). -/
theorem opcode_of_decodeAt (h : decodeAt rd p = .ok i n) :
    ∃ b, rd p = some b ∧ i.opcode = Opcode.ofByte b ∧ n = p + (Opcode.ofByte b).length := by
  obtain ⟨b, q, hfetch, hi⟩ := Fetched.andThen_eq_ok.1 h
  obtain ⟨hb, rfl⟩ := fetchByte_eq_ok.1 hfetch
  obtain ⟨hop, -, hn, -⟩ := fetchOperands_eq_ok.1 hi
  exact ⟨b, hb, hop, by rw [hn, Opcode.length, Nat.add_assoc]⟩

end

/-- Settles O1: the equivalence from right to left. -/
theorem decodeOfEncodeIsTheInstruction : Obligations.DecodeOfEncodeIsTheInstruction := fun _ _ _ h =>
  decodeAt_eq_ok.2 ⟨rfl, h⟩

/-- Settles O2: the equivalence from left to right. -/
theorem decodedBytesAreTheEncoding : Obligations.DecodedBytesAreTheEncoding := fun _ _ _ _ h =>
  decodeAt_eq_ok.1 h

end Sys2Proof
end

section
/-! What the opcode byte decides alone (R37, R45, R52, R77, R99). Settles O3 and O4. -/

namespace Sys2Proof

/-- The consumed lengths of the table of R37, by the number of the opcode byte. -/
theorem length_ofByte (b : Byte) :
    (Opcode.ofByte b).length =
      if b.toNat = 5 ∨ b.toNat = 16 ∨ 18 ≤ b.toNat then 1
      else if b.toNat = 6 ∨ b.toNat = 7 ∨ b.toNat = 8 ∨ b.toNat = 15 then 2
      else 4 := by
  by_cases hb : b.toNat < 18
  · have htable : ∀ m < 18, (opcodeTable[m]?.getD .illegal).length =
        if m = 5 ∨ m = 16 ∨ 18 ≤ m then 1 else if m = 6 ∨ m = 7 ∨ m = 8 ∨ m = 15 then 2 else 4 := by decide
    exact htable b.toNat hb
  · have hlarge : 18 ≤ b.toNat := Nat.le_of_not_lt hb
    rw [ofByte_of_large hlarge, if_pos (.inr (.inr hlarge))]
    rfl

/-- Settles O3: the decode's opcode and length are those of its opcode byte. -/
theorem opcodeByteSelectsInstructionAndLength : Obligations.OpcodeByteSelectsInstructionAndLength := by
  intro rd p i n h
  obtain ⟨b, hb, hop, hn⟩ := opcode_of_decodeAt h
  refine ⟨b, hb, fun hle => ?_, fun hlt => ?_, by rw [hn, length_ofByte]⟩
  · rw [hop]
    exact getElem?_opcodeTable (Nat.lt_succ_of_le hle)
  · rw [hop]
    exact ofByte_of_large hlt

/-- A byte that maps to ILLEGAL decodes alone, to the instruction it names (R45). -/
theorem decodeAt_illegal {rd : ByteSource} {p : Nat} {b : Byte} (hb : rd p = some b) (h : Opcode.ofByte b = .illegal) :
    decodeAt rd p = .ok (illegalOfByte b) (p + 1) := by
  simp [decodeAt, fetchByte_of_some hb, h, fetchOperands]

end Sys2Proof

namespace Sys2Proof.Machine

/-- Every instruction of opcode ILLEGAL, the unassigned rows among them, halts with cause ILLEGAL (R76, R77). -/
theorem exec_of_illegal {i : Instr} (h : i.opcode = .illegal) (s : State) : exec i s = haltStep .illegal s := by
  cases execShape i with
  | halt c hop hi =>
    obtain ⟨hhlt, -⟩ | ⟨-, rfl⟩ := hop
    · cases h.symm.trans hhlt
    · exact hi s
  | _ => grind

/-- Settles O4: such a byte decodes to `illegalOfByte`, whose meaning is that of ILLEGAL. -/
theorem unrecognizedBytesDecodeToIllegal : Obligations.UnrecognizedBytesDecodeToIllegal := by
  refine ⟨fun rd p b hb hnum => ?_, fun s b hb hnum => ?_⟩
  · have hop := opcode_illegalOfByte b
    refine ⟨illegalOfByte b, decodeAt_illegal hb (ofByte_eq_illegal_iff.2 hnum), hop, fun h16 => ?_, fun s => ?_⟩
    · exact if_pos (by omega)
    · rw [exec_of_illegal hop, exec_of_illegal rfl]
      exact ⟨rfl, _, rfl, rfl⟩
  · have hf : fetchInstr s = .ok (illegalOfByte b) (s.pc.toNat + 1) :=
      decodeAt_illegal hb (ofByte_eq_illegal_iff.2 hnum)
    rw [step_of_fetch hf, exec_of_illegal (opcode_illegalOfByte b)]
    rfl

end Sys2Proof.Machine
end

section
/-! Records: when one is well-formed, and what the encoder's record holds (R41, R42, R43, R48). Settles O5, O6 and O7. -/

namespace Sys2Proof

/-- The fields of the kinds `fs` stand in the source from `p` on: every byte is there, and a register field's is below
32 (R42, R51). -/
def GoodFields (rd : ByteSource) (p : Nat) (fs : List FieldKind) : Prop :=
  ∀ j, j < fs.length → ∃ v, rd (p + j) = some v ∧ (fs[j]? = some .reg → v.toNat < 32)

theorem goodFields_nil (rd : ByteSource) (p : Nat) : GoodFields rd p [] := fun j hj => absurd hj (Nat.not_lt_zero j)

theorem goodFields_cons {rd : ByteSource} {p : Nat} {f : FieldKind} {fs : List FieldKind} :
    GoodFields rd p (f :: fs) ↔
      (∃ v, rd p = some v ∧ (f = .reg → v.toNat < 32)) ∧ GoodFields rd (p + 1) fs := by
  constructor
  · intro h
    refine ⟨by simpa using h 0 (Nat.succ_pos _), fun j hj => ?_⟩
    have hj' := h (j + 1) (Nat.succ_lt_succ hj)
    rwa [List.getElem?_cons_succ, Nat.add_comm j, ← Nat.add_assoc] at hj'
  · rintro ⟨hf, hfs⟩ j hj
    cases j with
    | zero => simpa using hf
    | succ j =>
      rw [List.getElem?_cons_succ, Nat.add_comm j, ← Nat.add_assoc]
      exact hfs j (Nat.lt_of_succ_lt_succ hj)

/-- A register field is good where its byte is some register's. -/
theorem goodFields_reg_cons {rd : ByteSource} {p : Nat} {fs : List FieldKind} :
    GoodFields rd p (.reg :: fs) ↔ (∃ r, rd p = some (regByte r)) ∧ GoodFields rd (p + 1) fs := by
  have hreg : (∃ v : Byte, rd p = some v ∧ v.toNat < 32) ↔ ∃ r, rd p = some (regByte r) := by
    constructor
    · rintro ⟨v, hv, hlt⟩
      refine ⟨⟨v.toNat, hlt⟩, ?_⟩
      rw [hv, ← eq_regByte_iff.1 (regOfByte_eq_some.2 rfl)]
    · rintro ⟨r, hr⟩
      exact ⟨regByte r, hr, by simp⟩
  simp [goodFields_cons, hreg]

theorem goodFields_pad_cons {rd : ByteSource} {p : Nat} {fs : List FieldKind} :
    GoodFields rd p (.pad :: fs) ↔ (∃ v, rd p = some v) ∧ GoodFields rd (p + 1) fs := by
  simp [goodFields_cons]

/-- The two bytes of an immediate are good where some immediate's bytes stand. -/
theorem goodFields_imm_imm_cons {rd : ByteSource} {p : Nat} {fs : List FieldKind} :
    GoodFields rd p (.imm :: .imm :: fs) ↔
      (∃ h, rd p = some (highByte h) ∧ rd (p + 1) = some (lowByte h)) ∧ GoodFields rd (p + 2) fs := by
  have himm : (∃ v, rd p = some v) ∧ (∃ v, rd (p + 1) = some v) ↔
      ∃ h, rd p = some (highByte h) ∧ rd (p + 1) = some (lowByte h) := by
    constructor
    · rintro ⟨⟨hi, h0⟩, lo, h1⟩
      exact ⟨bigEndian hi lo, by simpa using h0, by simpa using h1⟩
    · rintro ⟨h, h0, h1⟩
      exact ⟨⟨_, h0⟩, _, h1⟩
  simp [goodFields_cons, ← himm, and_assoc]

/-- The operands of an opcode are read exactly where its fields are good (R98). -/
theorem fetchOperands_succeeds_iff {rd : ByteSource} {b : Byte} {p : Nat} {op : Opcode} :
    (∃ i n, fetchOperands rd b p op = .ok i n) ↔ GoodFields rd p op.fields := by
  cases op with
  | load =>
    simp [fetchOperands, fetchRI_eq_ok, Opcode.fields, goodFields_reg_cons, goodFields_imm_imm_cons, goodFields_nil]
  | add | sub | mul | div =>
    simp [fetchOperands, fetchRRR_eq_ok, Opcode.fields, goodFields_reg_cons, goodFields_nil]
  | eq | neq | gte | lte | gt | lt =>
    simp [fetchOperands, fetchRRP_eq_ok, Opcode.fields, goodFields_reg_cons, goodFields_pad_cons, goodFields_nil]
  | aloc =>
    simp [fetchOperands, fetchRPP_eq_ok, Opcode.fields, goodFields_reg_cons, goodFields_pad_cons, goodFields_nil]
  | jmp | jmpf | jmpb | jmpe =>
    simp [fetchOperands, fetchR_eq_ok, Opcode.fields, goodFields_reg_cons, goodFields_nil]
  | hlt | illegal => simp [fetchOperands, Opcode.fields, goodFields_nil]

/-- A decode succeeds exactly where the fields of its opcode byte are good. -/
theorem decodeAt_succeeds_iff {rd : ByteSource} {p : Nat} {b : Byte} (hb : rd p = some b) :
    (∃ i n, decodeAt rd p = .ok i n) ↔ GoodFields rd (p + 1) (Opcode.ofByte b).fields := by
  rw [decodeAt, fetchByte_of_some hb, Fetched.andThen_ok]
  exact fetchOperands_succeeds_iff

/-- Whether an instruction's opcode is assigned is told by its first byte (R43). -/
theorem wellFormed_iff_of_encode {i : Instr} {b : Byte} {rest : List Byte} (he : encode i = b :: rest) :
    i.wellFormed = true ↔ b.toNat < 18 := by
  cases i with
  | unassigned18to19 o | unassigned20to23 o | unassigned24to31 o | unassigned32to63 o | unassigned64to127 o
  | unassigned128to255 o =>
    cases he
    revert o
    decide
  | _ =>
    cases he
    exact iff_of_true rfl (by decide)

/-- Whether a decoded instruction's opcode is assigned is told by the opcode byte (R43, R48). -/
theorem wellFormed_iff_of_decodeAt {rd : ByteSource} {p n : Nat} {i : Instr} {b : Byte} (hb : rd p = some b)
    (h : decodeAt rd p = .ok i n) : i.wellFormed = true ↔ b.toNat < 18 := by
  obtain ⟨-, c, rest, he, -⟩ := encodeShape i
  obtain ⟨-, hbytes⟩ := decodeAt_eq_ok.1 h
  rw [he, bytesAt_cons, hb, Option.some.injEq] at hbytes
  obtain ⟨rfl, -⟩ := hbytes
  exact wellFormed_iff_of_encode he

/-- The encoder's contract counts as register fields the leading ones of the format (R38, R48). -/
theorem registerFields_of_lt {b : Byte} (h : b.toNat < 18) :
    registerFields b.toNat = some ((Opcode.ofByte b).fields.count .reg) := by
  have htable : ∀ m < 18, registerFields m = some ((opcodeTable[m]?.getD .illegal).fields.count .reg) := by decide
  exact htable b.toNat h

theorem registerFields_of_le {m : Nat} (h : 18 ≤ m) : registerFields m = none := by
  unfold registerFields
  iterate 8 rw [if_neg (by omega)]

/-- In a record every byte is there, so only its register fields can be bad. -/
theorem goodFields_record_iff (r : Record) (op : Opcode) :
    GoodFields (listSource r.bytes) 1 op.fields ↔
      (([r.b1, r.b2, r.b3].take (op.fields.count .reg)).all fun b => decide (b.toNat < 32)) = true := by
  cases op <;> simp [Opcode.fields, goodFields_cons, goodFields_nil, listSource, Record.bytes]

/-- The contract of R48 in the decoder's words. -/
theorem record_wellFormed_iff (r : Record) :
    r.wellFormed = true ↔ r.b0.toNat < 18 ∧ GoodFields (listSource r.bytes) 1 (Opcode.ofByte r.b0).fields := by
  rw [goodFields_record_iff, Record.wellFormed]
  by_cases h : r.b0.toNat < 18
  · simp [registerFields_of_lt h, h]
  · simp [registerFields_of_le (Nat.le_of_not_lt h), h]

/-- Settles O5: a decode of the record succeeds where its fields are good, and its first byte tells whether the opcode is
assigned. -/
theorem recordWellFormedIffAssignedInstruction : Obligations.RecordWellFormedIffAssignedInstruction := by
  intro r
  have hb0 : listSource r.bytes 0 = some r.b0 := rfl
  rw [record_wellFormed_iff, ← decodeAt_succeeds_iff hb0]
  constructor
  · rintro ⟨hlt, i, n, h⟩
    exact ⟨i, n, h, (wellFormed_iff_of_decodeAt hb0 h).2 hlt⟩
  · rintro ⟨i, n, h, hi⟩
    exact ⟨(wellFormed_iff_of_decodeAt hb0 h).1 hi, i, n, h⟩

/-- No instruction consumes more than a record (R37). -/
theorem length_encode_le (i : Instr) : (encode i).length ≤ 4 := by
  rw [length_encode]
  cases i.opcode <;> decide

/-- Each byte of the encoder's record: the instruction's, or zero where it has none (R42, D16). -/
theorem getElem?_encodeRecord (i : Instr) {k : Nat} (hk : k < 4) :
    (encodeRecord i).bytes[k]? = some ((encode i)[k]?.getD 0#8) := by
  interval_cases k <;> rfl

/-- Settles O6: the record starts with the instruction's bytes, and beyond them the instruction has none. -/
theorem encodedRecordDecodesAndPadsWithZero : Obligations.EncodedRecordDecodesAndPadsWithZero := by
  intro i
  have hbytes : BytesAt (listSource (encodeRecord i).bytes) 0 (encode i) := by
    intro k hk
    have hk4 : k < 4 := Nat.lt_of_lt_of_le hk (length_encode_le i)
    rw [Nat.zero_add, listSource, getElem?_encodeRecord i hk4, List.getElem?_eq_getElem hk, Option.getD_some]
  refine ⟨decodeAt_eq_ok.2 ⟨(Nat.zero_add _).symm, hbytes⟩, fun k hlen hk => ?_⟩
  rw [getElem?_encodeRecord i hk, List.getElem?_eq_none hlen, Option.getD_none]

/-- Settles O7: each word's record is decoded. -/
theorem sampleTableWordsDecode : Obligations.SampleTableWordsDecode := by
  unfold Obligations.SampleTableWordsDecode
  decide

end Sys2Proof
end

section
/-! What a step runs (R54): the instruction at `pc`, or nothing where the buffer has ended (R92). Settles O8, O11 and
O49. -/

namespace Sys2Proof

theorem decodeAt_of_none {rd : ByteSource} {p : Nat} (h : rd p = none) :
    decodeAt rd p = .error (.malformedStream p) := by
  rw [decodeAt, fetchByte_of_none h, Fetched.andThen_error]

/-- The encoder's record starts with the instruction's bytes (R48). -/
theorem bytesAt_encodeRecord (i : Instr) : BytesAt (listSource (encodeRecord i).bytes) 0 (encode i) := by
  obtain ⟨hdecode, -⟩ := encodedRecordDecodesAndPadsWithZero i
  exact (decodeAt_eq_ok.1 hdecode).2

end Sys2Proof

namespace Sys2Proof.Machine

/-- Settles O8: the decode at `pc` gives the instruction whose bytes stand there. -/
theorem stepRunsTheInstructionAtPc : Obligations.StepRunsTheInstructionAtPc := fun _ _ h =>
  step_of_fetch (decodeAt_eq_ok.2 ⟨rfl, h⟩)

/-- Settles O11: a canonical buffer has no opcode byte at or beyond its length. -/
theorem fetchBeyondTheBufferFaults : Obligations.FetchBeyondTheBufferFaults := fun _ hwf hsize =>
  step_of_error (decodeAt_of_none ((Memory.read_eq_none_iff hwf _).2 hsize))

/-- Settles O49: the first record has room in every engine, and its bytes are the whole buffer, from offset 0. -/
theorem bootRunsTheFirstAppendedRecord : Obligations.BootRunsTheFirstAppendedRecord := by
  rintro p i ⟨hroom, -, -⟩
  have hwf : (construct p).prog.wf := Memory.wf_ofBytes []
  obtain ⟨hfull, -⟩ | ⟨-, h⟩ := append_cases (encodeRecord i) (construct p)
  · have hsize : (construct p).prog.size = 0 := by simp
    rw [hsize, construct_params] at hfull
    omega
  · refine ⟨_, h, rfl, stepRunsTheInstructionAtPc _ i fun k hk => ?_⟩
    have hat := bytesAt_encodeRecord i k hk
    rw [Nat.zero_add] at hat
    exact (Memory.read_append_new hwf (encodeRecord i).bytes k).trans hat

end Sys2Proof.Machine
end

section
/-! What a step and a run-once answer (R53, R55, R56, R61, R97): never a refusal, the opcode's own outcome where the
step completes, and the old state where it faults. Settles O12, O13 and O14. -/

namespace Sys2Proof.Machine

/-- No instruction is refused (R53): each shape ends in a next state or in a fault of its own. -/
theorem exec_ne_refused (i : Instr) (s : State) (r : Refusal) : exec i s ≠ .refused r := by
  have hexact (z : Int) (d : Reg) (u : State) : writeExact z d u ≠ .refused r := by
    obtain ⟨-, h⟩ | ⟨-, -, h⟩ := writeExact_cases z d u <;> simp [h]
  cases execShape i with
  | load _ _ _ hi | compare _ _ _ _ hi | jump _ _ _ hi | halt _ _ hi =>
    rw [hi]
    nofun
  | arith f a b d _ hi =>
    rw [hi]
    exact hexact _ d s
  | div a b d _ hi =>
    rw [hi]
    obtain ⟨-, h⟩ | ⟨-, h⟩ := execDiv_cases a b d s
    · simp [h]
    · rw [h]
      exact hexact _ d _
  | jmpe q _ hi => simp [hi, execJmpe_eq]
  | aloc q _ hi =>
    rw [hi]
    obtain ⟨-, h⟩ | ⟨-, h⟩ := execAloc_cases q s <;> simp [h]

/-- Settles O12: a step answers what its instruction answers, or the fault of its decode. -/
theorem noStepIsRefused : Obligations.NoStepIsRefused := by
  intro s r
  cases hf : fetchInstr s with
  | ok i n =>
    rw [step_of_fetch hf]
    exact exec_ne_refused i s r
  | error e => simp [step_of_error hf]

/-- The outcome of a completed instruction, by its opcode (R55, C11). -/
def completionOutcome : Opcode → StepOutcome
  | .hlt => .halted .hlt
  | .illegal => .halted .illegal
  | _ => .continued

theorem completionOutcome_of_ne {op : Opcode} (hhlt : op ≠ .hlt) (hill : op ≠ .illegal) :
    completionOutcome op = .continued := by
  cases op with
  | hlt => exact absurd rfl hhlt
  | illegal => exact absurd rfl hill
  | _ => rfl

theorem completionOutcome_ne_faulted (op : Opcode) (k : Fault) : completionOutcome op ≠ .faulted k := by
  cases op <;> nofun

/-- A completed instruction latches the outcome of its opcode (R20, R55). -/
theorem Completed.lastOutcome_eq {i : Instr} {s t : State} (h : Completed i s t) :
    t.lastOutcome = some (completionOutcome i.opcode) := by
  cases h with
  | register d v hop => obtain hop | hop | hop | hop := hop <;> rw [hop] <;> rfl
  | division d q r hop => rw [hop]; rfl
  | comparison b hop => obtain hop | hop | hop | hop | hop | hop := hop <;> rw [hop] <;> rfl
  | jump t hop => obtain hop | hop | hop := hop <;> rw [hop] <;> rfl
  | jmpe r hop => rw [hop]; rfl
  | halt c hop => obtain ⟨hop, rfl⟩ | ⟨hop, rfl⟩ := hop <;> rw [hop] <;> rfl
  | aloc n hop => rw [hop]; rfl

/-- Settles O13: the completed step has latched the outcome of its opcode. -/
theorem completedStepReportsItsOutcome : Obligations.CompletedStepReportsItsOutcome := by
  intro s t i n hf hs
  rw [step_of_fetch hf] at hs
  rw [(completed_of_exec hs).lastOutcome_eq]
  exact ⟨fun h => by rw [h]; rfl, fun h => by rw [h]; rfl,
    fun hhlt hill => by rw [completionOutcome_of_ne hhlt hill]⟩

/-- Everything run-once can answer (R56): a completed step with the outcome it latched, which is no fault, or the fault
and the old state with that fault latched. -/
theorem runOnce_cases (s : State) :
    (∃ t o, step s = .next t ∧ runOnce s = .ok (o, t) ∧ t.lastOutcome = some o ∧ ∀ k, o ≠ .faulted k) ∨
    (∃ k, step s = .fault k ∧ runOnce s = .ok (.faulted k, latch (.faulted k) s)) := by
  cases hs : step s with
  | next t =>
    obtain ⟨i, n, -, hi⟩ := fetch_of_step_next hs
    have hout := (completed_of_exec hi).lastOutcome_eq
    refine .inl ⟨t, _, rfl, ?_, hout, completionOutcome_ne_faulted i.opcode⟩
    rw [runOnce_of_next hs, hout, Option.getD_some]
  | fault k => exact .inr ⟨k, rfl, runOnce_of_fault hs⟩
  | refused r => exact absurd hs (noStepIsRefused s r)

/-- Run-once latches the outcome it answers (R20). -/
theorem lastOutcome_of_runOnce {s t : State} {o : StepOutcome} (h : runOnce s = .ok (o, t)) :
    t.lastOutcome = some o := by
  obtain ⟨u, o', -, h', hout, -⟩ | ⟨k, -, h'⟩ := runOnce_cases s
  · cases h'.symm.trans h
    exact hout
  · cases h'.symm.trans h
    rfl

theorem runOnce_ne_error (s : State) (r : Refusal) : runOnce s ≠ .error r := by
  obtain ⟨t, o, -, h, -⟩ | ⟨k, -, h⟩ := runOnce_cases s <;> simp [h]

/-- Settles O14: only the faulting step answers a fault, and the status that run-once latched is read by no step. -/
theorem faultIsPreciseAndRepeats : Obligations.FaultIsPreciseAndRepeats := by
  intro s t k h
  obtain ⟨u, o, -, h', -, hne⟩ | ⟨j, hs, h'⟩ := runOnce_cases s
  · cases h'.symm.trans h
    exact absurd rfl (hne k)
  · cases h'.symm.trans h
    have hagain : step (latch (.faulted k) s) = .fault k := (lastOutcomeIsReadByNoStep s _).trans hs
    exact ⟨hs, rfl, runOnce_of_fault hagain⟩

end Sys2Proof.Machine
end

section
/-! Where an instruction completes (R68, R73, R83, R90, R94 to R96). Settles O58. -/

namespace Sys2Proof.Machine

/-- The arithmetic skeleton completes where the overflow law gives a word (R69). -/
theorem writeExact_completes_iff {z : Int} {d : Reg} {s : State} :
    (∃ t, writeExact z d s = .next t) ↔ fitsSigned32 z ∨ s.params.overflowPolicy = .wrap := by
  obtain ⟨hfits, h⟩ | ⟨hz, hp, h⟩ := writeExact_cases z d s
  · exact iff_of_true ⟨_, h⟩ hfits
  · simp [h, hz, hp]

theorem fitsSigned32_signed (v : Word) : fitsSigned32 (signed v) := by
  have hlo := v.le_toInt
  have hhi := v.toInt_lt
  simp only [signed]
  omega

/-- The quotient leaves the range in one case only (R74): it is no larger than the dividend, and of -2^31 by a divisor
other than 1 and -1 no larger than half of that. -/
theorem fitsSigned32_truncQuotient_iff {va vb : Int} (ha : fitsSigned32 va) :
    fitsSigned32 (truncQuotient va vb) ↔ ¬ (va = -2147483648 ∧ vb = -1) := by
  have habs : (truncQuotient va vb).natAbs = va.natAbs / vb.natAbs := Int.natAbs_tdiv va vb
  by_cases hmin : va = -2147483648
  · subst hmin
    by_cases hone : vb = -1 ∨ vb = 0 ∨ vb = 1
    · obtain rfl | rfl | rfl := hone <;> decide
    · have hhalf : (-2147483648 : Int).natAbs / vb.natAbs ≤ 2147483648 / 2 :=
        Nat.div_le_div_left (by omega) (by decide)
      omega
  · have hle : va.natAbs / vb.natAbs ≤ va.natAbs := Nat.div_le_self _ _
    omega

theorem execDiv_completes_iff {a b d : Reg} {s : State} :
    (∃ t, execDiv a b d s = .next t) ↔
      signedOperand b s ≠ 0 ∧
        (¬ (signedOperand a s = -2147483648 ∧ signedOperand b s = -1) ∨ s.params.overflowPolicy = .wrap) := by
  obtain ⟨hzero, h⟩ | ⟨hzero, h⟩ := execDiv_cases a b d s
  · simp [h, hzero]
  · have ha : fitsSigned32 (signedOperand a s) := fitsSigned32_signed (readReg a s)
    rw [h, writeExact_completes_iff, setRem_params, fitsSigned32_truncQuotient_iff ha]
    simp [hzero]

theorem execAloc_completes_iff {r : Reg} {s : State} :
    (∃ t, execAloc r s = .next t) ↔ 0 ≤ requestedLength r s ∧ requestedLength r s ≤ s.params.heapMax := by
  obtain ⟨hout, h⟩ | ⟨hin, h⟩ := execAloc_cases r s
  · refine iff_of_false (by simp [h]) ?_
    omega
  · exact iff_of_true ⟨_, h⟩ hin

/-- Settles O58: the arithmetic instructions and ALOC by their own lemmas; every other meaning is a completion. -/
theorem execCompletesExactlyWhereNoFaultIsDue : Obligations.ExecCompletesExactlyWhereNoFaultIsDue := by
  intro i s
  cases i with
  | add | sub | mul => exact writeExact_completes_iff
  | div => exact execDiv_completes_iff
  | aloc => exact execAloc_completes_iff
  | jmpe r => exact iff_of_true ⟨_, execJmpe_eq r s⟩ trivial
  | _ => exact iff_of_true ⟨_, rfl⟩ trivial

end Sys2Proof.Machine
end

section
/-! Preload and inspection (R64, R65): what each accepted preload leaves to be read of the items it does not set.
Settles O50. -/

namespace Sys2Proof.Machine

section
variable {i : Item} (s : State)

theorem inspect_writeReg {r : Reg} (h : i ≠ .reg r) (v : Word) : inspect i (writeReg r v s) = inspect i s := by
  cases i with
  | reg q =>
    have hq : q ≠ r := fun e => h (congrArg Item.reg e)
    exact congrArg ItemValue.word (readReg_writeReg_other hq v s)
  | _ => rfl

theorem inspect_setPc (h : i ≠ .pc) (v : Word) : inspect i (setPc v s) = inspect i s := by
  cases i with
  | pc => contradiction
  | _ => rfl

theorem inspect_setEqf (h : i ≠ .eqf) (b : Bool) : inspect i (setEqf b s) = inspect i s := by
  cases i with
  | eqf => contradiction
  | _ => rfl

theorem inspect_setRem (h : i ≠ .rem) (v : Word) : inspect i (setRem v s) = inspect i s := by
  cases i with
  | rem => contradiction
  | _ => rfl

theorem inspect_setHeapLen (h : i ≠ .heapLen) (v : Word) : inspect i (setHeapLen v s) = inspect i s := by
  cases i with
  | heapLen => contradiction
  | _ => rfl

theorem inspect_of_prog_replaced (hlen : i ≠ .progLength) (hbyte : ∀ a, i ≠ .progByte a) (m : Memory) :
    inspect i { s with prog := m } = inspect i s := by
  cases i with
  | progLength => contradiction
  | progByte a => exact absurd rfl (hbyte a)
  | _ => rfl

end

/-- A heap length is accepted up to HEAP_MAX (R65). -/
theorem preload_heapLen_eq_some {v : Word} {s t : State} :
    preload (.heapLen v) s = some t ↔ v.toNat ≤ s.params.heapMax ∧ setHeapLen v s = t := by
  simp [preload, setHeapLen]

/-- A buffer is accepted up to PROG_MAX bytes (R65). -/
theorem preload_prog_eq_some {bs : List Byte} {s t : State} :
    preload (.prog bs) s = some t ↔ bs.length ≤ s.params.progMax ∧ { s with prog := Memory.ofBytes bs } = t := by
  simp [preload]

/-- Settles O50: the two bounded items are accepted by the lemmas above, the others always; each accepted preload is one
update of the state, which inspection of the other items does not see. -/
theorem preloadWritesItsItemAlone : Obligations.PreloadWritesItsItemAlone := by
  refine ⟨fun s => ⟨fun _ _ => ⟨_, rfl⟩, fun _ => ⟨_, rfl⟩, fun _ => ⟨_, rfl⟩, fun _ => ⟨_, rfl⟩, fun v => ?_,
    fun bs => ?_⟩, fun s t => ⟨fun r v h => ?_, fun v h => ?_, fun b h => ?_, fun v h => ?_, fun v h => ?_,
    fun bs h => ?_⟩⟩
  · simp [preload_heapLen_eq_some]
  · simp [preload_prog_eq_some]
  · cases h
    exact ⟨congrArg ItemValue.word (readReg_writeReg_same r v s), fun _ hi => inspect_writeReg s hi v⟩
  · cases h
    exact ⟨rfl, fun _ hi => inspect_setPc s hi v⟩
  · cases h
    exact ⟨rfl, fun _ hi => inspect_setEqf s hi b⟩
  · cases h
    exact ⟨rfl, fun _ hi => inspect_setRem s hi v⟩
  · obtain ⟨-, rfl⟩ := preload_heapLen_eq_some.1 h
    exact ⟨rfl, fun _ hi => inspect_setHeapLen s hi v⟩
  · obtain ⟨-, rfl⟩ := preload_prog_eq_some.1 h
    exact ⟨congrArg ItemValue.length (Memory.size_ofBytes bs),
      fun a => congrArg ItemValue.byte (Memory.read_ofBytes bs a),
      fun _ hlen hbyte => inspect_of_prog_replaced s hlen hbyte _⟩

end Sys2Proof.Machine
end

section
/-! The run loop (R57, R58, R113) as a relation, one rule per way the loop goes; what holds of a returned run is
shown by induction over it. Settles O51, O52 and O53. -/

namespace Sys2Proof.Machine

/-- The loop is about to step: both tests of R57 have let it pass. -/
abbrev Proceeds (budget : Option Nat) (n : Nat) (s : State) : Prop :=
  s.pc.toNat < s.prog.size ∧ budgetSpent budget n = false

/-- `RunsTo budget fuel n s r t`: from `s`, after `n` steps, the loop returns `r` and `t` within `fuel` more steps. -/
inductive RunsTo (budget : Option Nat) : Nat → Nat → State → RunResult → State → Prop
  | endOfBuffer {fuel n : Nat} {s : State} (h : s.prog.size ≤ s.pc.toNat) : RunsTo budget fuel n s .endOfBuffer s
  | stepLimit {fuel n : Nat} {s : State} (hpc : s.pc.toNat < s.prog.size) (hspent : budgetSpent budget n = true) :
      RunsTo budget fuel n s .stepLimit s
  | halted {fuel n : Nat} {s t : State} {c : HaltCause} (h : Proceeds budget n s)
      (ho : runOnce s = .ok (.halted c, t)) : RunsTo budget (fuel + 1) n s (.halted c) t
  | faulted {fuel n : Nat} {s t : State} {k : Fault} (h : Proceeds budget n s)
      (ho : runOnce s = .ok (.faulted k, t)) : RunsTo budget (fuel + 1) n s (.faulted k) t
  | continued {fuel n : Nat} {s t u : State} {r : RunResult} (h : Proceeds budget n s)
      (ho : runOnce s = .ok (.continued, t)) (hrest : RunsTo budget fuel (n + 1) t r u) :
      RunsTo budget (fuel + 1) n s r u

theorem RunsTo.of_runLoop {budget : Option Nat} {fuel n : Nat} {s t : State} {r : RunResult}
    (h : runLoop fuel budget n s = some (r, t)) : RunsTo budget fuel n s r t := by
  induction fuel generalizing n s with
  | zero =>
    unfold runLoop at h
    split_ifs at h with hend hspent
    · cases h
      exact .endOfBuffer hend
    · cases h
      exact .stepLimit (Nat.lt_of_not_le hend) hspent
  | succ fuel ih =>
    unfold runLoop at h
    split_ifs at h with hend hspent
    · cases h
      exact .endOfBuffer hend
    · cases h
      exact .stepLimit (Nat.lt_of_not_le hend) hspent
    · have hproceeds : Proceeds budget n s := ⟨Nat.lt_of_not_le hend, eq_false_of_ne_true hspent⟩
      cases ho : runOnce s with
      | error e => exact absurd ho (runOnce_ne_error s e)
      | ok x =>
        obtain ⟨o, u⟩ := x
        simp only [ho] at h
        cases o with
        | continued => exact .continued hproceeds ho (ih h)
        | halted c =>
          cases h
          exact .halted hproceeds ho
        | faulted k =>
          cases h
          exact .faulted hproceeds ho

/-- The relation says what the loop returns. -/
theorem runLoop_eq_some_iff {budget : Option Nat} {fuel n : Nat} {s t : State} {r : RunResult} :
    runLoop fuel budget n s = some (r, t) ↔ RunsTo budget fuel n s r t := by
  refine ⟨.of_runLoop, fun h => ?_⟩
  induction h with
  | endOfBuffer h =>
    unfold runLoop
    rw [if_pos h]
  | stepLimit hpc hspent =>
    unfold runLoop
    rw [if_neg (Nat.not_le_of_lt hpc), if_pos hspent]
  | halted h ho | faulted h ho => simp [runLoop, h.1, h.2, ho]
  | continued h ho hrest ih => simp [runLoop, h.1, h.2, ho, ih]

/-- More fuel lets every rule through that less fuel let through. -/
theorem RunsTo.more {budget : Option Nat} {fuel n : Nat} {s t : State} {r : RunResult}
    (h : RunsTo budget fuel n s r t) (more : Nat) : RunsTo budget (fuel + more) n s r t := by
  induction h with
  | endOfBuffer h => exact .endOfBuffer h
  | stepLimit hpc hspent => exact .stepLimit hpc hspent
  | halted h ho =>
    rw [Nat.add_right_comm]
    exact .halted h ho
  | faulted h ho =>
    rw [Nat.add_right_comm]
    exact .faulted h ho
  | continued h ho hrest ih =>
    rw [Nat.add_right_comm]
    exact .continued h ho ih

/-- Settles O53: the run as a relation, with the additional fuel, and back. -/
theorem runResultDoesNotDependOnFuel : Obligations.RunResultDoesNotDependOnFuel := by
  rintro fuel more budget s ⟨r, t⟩ h
  exact runLoop_eq_some_iff.2 ((RunsTo.of_runLoop h).more more)

/-- One of the tests of R57 returns, or the loop is about to step. -/
theorem runsTo_or_proceeds (budget : Option Nat) (fuel n : Nat) (s : State) :
    (∃ r t, RunsTo budget fuel n s r t) ∨ Proceeds budget n s := by
  by_cases hend : s.prog.size ≤ s.pc.toNat
  · exact .inl ⟨_, _, .endOfBuffer hend⟩
  · have hpc : s.pc.toNat < s.prog.size := Nat.lt_of_not_le hend
    cases hspent : budgetSpent budget n with
    | true => exact .inl ⟨_, _, .stepLimit hpc hspent⟩
    | false => exact .inr ⟨hpc, hspent⟩

/-- A budget that the fuel covers is spent before the fuel is. -/
theorem runsTo_of_budget_le {b fuel n : Nat} (hb : b ≤ n + fuel) (s : State) :
    ∃ r t, RunsTo (some b) fuel n s r t := by
  induction fuel generalizing n s with
  | zero =>
    obtain h | ⟨-, hspent⟩ := runsTo_or_proceeds (some b) 0 n s
    · exact h
    · exact absurd hb (of_decide_eq_false hspent)
  | succ fuel ih =>
    obtain h | hproceeds := runsTo_or_proceeds (some b) (fuel + 1) n s
    · exact h
    · cases ho : runOnce s with
      | error e => exact absurd ho (runOnce_ne_error s e)
      | ok x =>
        obtain ⟨o, u⟩ := x
        cases o with
        | continued =>
          obtain ⟨r, t, h⟩ := ih (n := n + 1) (by omega) u
          exact ⟨r, t, .continued hproceeds ho h⟩
        | halted c => exact ⟨_, _, .halted hproceeds ho⟩
        | faulted k => exact ⟨_, _, .faulted hproceeds ho⟩

/-- Settles O51: no step is done yet, and the fuel is the budget. -/
theorem runWithBudgetReturns : Obligations.RunWithBudgetReturns := by
  intro b s
  obtain ⟨r, t, h⟩ := runsTo_of_budget_le (Nat.le_add_left b 0) s
  exact ⟨r, t, runLoop_eq_some_iff.2 h⟩

/-- Settles O52: rule by rule; a step that went on hands its run's end on. -/
theorem runEndsAsItReports : Obligations.RunEndsAsItReports := by
  intro fuel budget s t r h
  have hr : RunsTo budget fuel 0 s r t := .of_runLoop h
  clear h
  generalize 0 = n at hr
  induction hr with
  | endOfBuffer hend => exact ⟨fun _ => hend, nofun, nofun, nofun, nofun⟩
  | stepLimit hpc hspent =>
    refine ⟨nofun, fun _ => ⟨hpc, ?_⟩, nofun, nofun, nofun⟩
    rintro rfl
    cases hspent
  | halted _ ho =>
    refine ⟨nofun, nofun, fun c hc => ?_, nofun, nofun⟩
    cases hc
    exact lastOutcome_of_runOnce ho
  | faulted _ ho =>
    refine ⟨nofun, nofun, nofun, fun k hk => ?_, nofun⟩
    cases hk
    obtain ⟨-, -, hagain⟩ := faultIsPreciseAndRepeats _ _ _ ho
    exact (faultIsPreciseAndRepeats _ _ _ hagain).1
  | continued _ _ _ ih => exact ih

end Sys2Proof.Machine
end

section
/-! Padding is read by no meaning (R42, R77), and the operands of an opcode are its fields fetched one by one (R38,
R62). With the two, the step is said in the dispatch FSM's terms. -/

namespace Sys2Proof

theorem Fetched.andThen_assoc {α β γ : Type} (f : Fetched α) (g : α → Nat → Fetched β) (h : β → Nat → Fetched γ) :
    (f.andThen g).andThen h = f.andThen fun v n => (g v n).andThen h := by cases f <;> rfl

/-- The instruction with zero for its padding bytes, and ILLEGAL for an unassigned row. -/
def Instr.withoutPadding : Instr → Instr
  | .eq a b _ => .eq a b 0#8
  | .neq a b _ => .neq a b 0#8
  | .gte a b _ => .gte a b 0#8
  | .lte a b _ => .lte a b 0#8
  | .gt a b _ => .gt a b 0#8
  | .lt a b _ => .lt a b 0#8
  | .aloc r _ _ => .aloc r 0#8 0#8
  | .unassigned18to19 _ => .illegal
  | .unassigned20to23 _ => .illegal
  | .unassigned24to31 _ => .illegal
  | .unassigned32to63 _ => .illegal
  | .unassigned64to127 _ => .illegal
  | .unassigned128to255 _ => .illegal
  | i => i

theorem withoutPadding_illegalOfByte (b : Byte) : (illegalOfByte b).withoutPadding = .illegal := by
  unfold illegalOfByte
  repeat' split
  all_goals rfl

/-- What the FSM latches of a step's fields: the registers in fetch order, and the immediate. -/
structure Latches where
  regs : List Reg
  imm : Half

/-- One byte more in the immediate's latch, high byte first. -/
def shiftIn (imm : Half) (b : Byte) : Half := (imm <<< 8) ||| b.setWidth 16

/-- The latch's low byte moves up, and the new byte stands below it. -/
theorem shiftIn_eq_append (imm : Half) (b : Byte) : shiftIn imm b = imm.setWidth 8 ++ b := by
  unfold shiftIn
  ext k hk
  rw [BitVec.getElem_append]
  by_cases h : k < 8
  · simp [h]
  · simp [h, BitVec.getLsbD_of_ge b k (Nat.le_of_not_lt h),
      BitVec.getLsbD_eq_getElem (x := imm) (i := k - 8) (by omega)]

/-- Two bytes shifted in are the big-endian halfword (R24). -/
theorem shiftIn_shiftIn (imm : Half) (hi lo : Byte) : shiftIn (shiftIn imm hi) lo = bigEndian hi lo := by
  rw [shiftIn_eq_append, shiftIn_eq_append, BitVec.setWidth_append_eq_right, bigEndian]

/-- No opcode has more than three fields (R37). -/
theorem length_fields_le (op : Opcode) : op.fields.length ≤ 3 := by cases op <;> decide

/-- One field, fetched into the latches; padding is dropped. -/
def fetchField (rd : ByteSource) (kind : FieldKind) (l : Latches) (npc : Nat) : Fetched Latches :=
  match kind with
  | .reg => (fetchReg rd npc).andThen fun r npc => .ok { l with regs := l.regs ++ [r] } npc
  | .imm => (fetchByte rd npc).andThen fun b npc => .ok { l with imm := shiftIn l.imm b } npc
  | .pad => (fetchByte rd npc).andThen fun _ npc => .ok l npc

theorem fetchField_of_none {rd : ByteSource} {kind : FieldKind} {l : Latches} {npc : Nat} (h : rd npc = none) :
    fetchField rd kind l npc = .error (.malformedStream npc) := by
  cases kind <;> simp [fetchField, fetchReg, fetchByte_of_none h]

/-- The fields of the given kinds, fetched one by one into the latches. -/
def fetchFields (rd : ByteSource) : List FieldKind → Latches → Nat → Fetched Latches
  | [], l, npc => .ok l npc
  | kind :: rest, l, npc => (fetchField rd kind l npc).andThen (fetchFields rd rest)

end Sys2Proof

namespace Sys2Proof.Machine

theorem exec_withoutPadding (i : Instr) (s : State) : exec i.withoutPadding s = exec i s := by cases i <;> rfl

/-- The instruction of an opcode and the fields latched for it. -/
def assembled (op : Opcode) (l : Latches) : Instr :=
  ({ Fsm.ready State.reset with op := op, regs := l.regs, imm := l.imm } : Fsm).assemble

/-- The operands of an opcode are its fields, but for the padding that the latches drop. -/
theorem fetchOperands_eq_fetchFields (rd : ByteSource) (b : Byte) (npc : Nat) (op : Opcode) :
    (fetchOperands rd b npc op).andThen (fun i n => .ok i.withoutPadding n) =
      (fetchFields rd op.fields ⟨[], 0#16⟩ npc).andThen (fun l n => .ok (assembled op l) n) := by
  cases op with
  | load =>
    simp only [fetchOperands, fetchRI, fetchHalf, Opcode.fields, fetchFields, fetchField, Fetched.andThen_assoc,
      Fetched.andThen_ok, shiftIn_shiftIn]
    rfl
  | add | sub | mul | div | eq | neq | gte | lte | gt | lt | aloc | jmp | jmpf | jmpb | jmpe =>
    simp only [fetchOperands, fetchRRR, fetchRRP, fetchRPP, fetchR, Opcode.fields, fetchFields, fetchField,
      Fetched.andThen_assoc, Fetched.andThen_ok]
    rfl
  | hlt => rfl
  | illegal => exact congrArg (Fetched.ok · npc) (withoutPadding_illegalOfByte b)

/-- Where the opcode byte is there, the fetch is that of its operands (R52). -/
theorem fetchInstr_eq_fetchOperands {s : State} {b : Byte} (hb : s.prog.read s.pc.toNat = some b) :
    fetchInstr s = fetchOperands s.prog.read b (s.pc.toNat + 1) (Opcode.ofByte b) := by
  rw [fetchInstr, decodeAt, fetchByte_of_some hb, Fetched.andThen_ok]

/-- Where every field is fetched, the step runs the instruction assembled from the latches (R54). -/
theorem step_of_fields_ok {s : State} {b : Byte} {l : Latches} {n : Nat} (hb : s.prog.read s.pc.toNat = some b)
    (h : fetchFields s.prog.read (Opcode.ofByte b).fields ⟨[], 0#16⟩ (s.pc.toNat + 1) = .ok l n) :
    step s = exec (assembled (Opcode.ofByte b) l) s := by
  have hop := fetchOperands_eq_fetchFields s.prog.read b (s.pc.toNat + 1) (Opcode.ofByte b)
  rw [h, Fetched.andThen_ok, Fetched.andThen_eq_ok, ← fetchInstr_eq_fetchOperands hb] at hop
  obtain ⟨i, m, hfetch, hpad⟩ := hop
  obtain ⟨hpad, -⟩ := Fetched.ok.inj hpad
  rw [step_of_fetch hfetch, ← hpad, exec_withoutPadding]

/-- The first field that is not fetched decides the step's fault (R98). -/
theorem step_of_fields_error {s : State} {b : Byte} {e : DecodeError} (hb : s.prog.read s.pc.toNat = some b)
    (h : fetchFields s.prog.read (Opcode.ofByte b).fields ⟨[], 0#16⟩ (s.pc.toNat + 1) = .error e) :
    step s = .fault (faultOfDecode e) := by
  have hop := fetchOperands_eq_fetchFields s.prog.read b (s.pc.toNat + 1) (Opcode.ofByte b)
  rw [h, Fetched.andThen_error, ← fetchInstr_eq_fetchOperands hb] at hop
  cases hf : fetchInstr s with
  | ok i n => simp [hf] at hop
  | error e' =>
    rw [hf, Fetched.andThen_error] at hop
    cases hop
    exact step_of_error hf

end Sys2Proof.Machine
end

section
/-! The dispatch FSM serves a step within a bounded number of visits (R62): the opcode, the fields one by one, EXECUTE,
and FAULT where something was raised. -/

namespace Sys2Proof.Machine

/-- Within `k` visits the FSM is in a configuration with property `Q`. -/
def Fsm.Within (k : Nat) (f : Fsm) (Q : Fsm → Prop) : Prop := ∃ n, n ≤ k ∧ Q (f.ticks n)

namespace Fsm

theorem Within.now {k : Nat} {f : Fsm} {Q : Fsm → Prop} (h : Q f) : f.Within k Q := ⟨0, Nat.zero_le k, h⟩

theorem Within.visit {k : Nat} {f : Fsm} {Q : Fsm → Prop} (h : f.tick.Within k Q) : f.Within (k + 1) Q := by
  obtain ⟨n, hn, hQ⟩ := h
  exact ⟨n + 1, Nat.succ_le_succ hn, hQ⟩

theorem Within.trans {k m : Nat} {f : Fsm} {P Q : Fsm → Prop} (h : f.Within k P) (hPQ : ∀ g, P g → g.Within m Q) :
    f.Within (k + m) Q := by
  obtain ⟨i, hi, hP⟩ := h
  obtain ⟨j, hj, hQ⟩ := hPQ _ hP
  exact ⟨i + j, Nat.add_le_add hi hj, by rwa [ticks_add]⟩

theorem Within.exists_trans {k : Nat} {f : Fsm} {P Q : Fsm → Prop} (h : f.Within k P)
    (hPQ : ∀ g, P g → ∃ m, g.Within m Q) : ∃ m, f.Within m Q := by
  obtain ⟨i, -, hP⟩ := h
  obtain ⟨-, j, -, hQ⟩ := hPQ _ hP
  exact ⟨i + j, i + j, Nat.le_refl _, by rwa [ticks_add]⟩

theorem Within.mono {k m : Nat} {f : Fsm} {P Q : Fsm → Prop} (h : f.Within k P) (hkm : k ≤ m)
    (hPQ : ∀ g, P g → Q g) : f.Within m Q := by
  obtain ⟨n, hn, hP⟩ := h
  exact ⟨n, Nat.le_trans hn hkm, hPQ _ hP⟩

/-! ### The phases of one step -/

/-- What the phases of one step leave as it was until EXECUTE: the architectural state, the command, the steps counted
and the latched opcode. -/
structure SameStep (f g : Fsm) : Prop where
  engine : g.engine = f.engine
  command : g.command = f.command
  count : g.count = f.count
  op : g.op = f.op

/-- The field latches of the FSM. -/
def latches (f : Fsm) : Latches := ⟨f.regs, f.imm⟩

theorem assemble_eq (f : Fsm) : f.assemble = assembled f.op f.latches := rfl

/-- Where the FIELD phase ends: in EXECUTE with the latches filled, or in FAULT with the error of the fetch. -/
def FieldsEnd (f : Fsm) : Fetched Latches → Prop
  | .ok l _ => f.phase = .execute ∧ f.latches = l
  | .error e => f.phase = .fault (faultOfDecode e)

/-- A visit of FIELD is the fetch of one field: on to the next one with the latches filled, or to FAULT. -/
theorem tick_field {f : Fsm} {kind : FieldKind} {rest : List FieldKind} (hphase : f.phase = .field)
    (hpending : f.pending = kind :: rest) :
    (∃ l, fetchField f.engine.prog.read kind f.latches f.npc = .ok l (f.npc + 1) ∧
      f.tick = ({ f with regs := l.regs, imm := l.imm } : Fsm).nextField rest) ∨
    (∃ e, fetchField f.engine.prog.read kind f.latches f.npc = .error e ∧ f.tick = f.fail (faultOfDecode e)) := by
  rw [tick, hphase, tickField, hpending]
  cases hb : f.engine.prog.read f.npc with
  | none =>
    rw [fetchField_of_none hb]
    exact .inr ⟨_, rfl, rfl⟩
  | some b =>
    simp only [fetchField, fetchReg, fetchByte_of_some hb, Fetched.andThen_ok]
    cases kind with
    | reg =>
      cases hr : regOfByte b with
      | none => exact .inr ⟨.invalidRegisterIndex b, by simp, by simp [faultOfDecode]⟩
      | some r => exact .inl ⟨{ f.latches with regs := f.regs ++ [r] }, rfl, by simp [hphase, latches]⟩
    | imm => exact .inl ⟨_, rfl, rfl⟩
    | pad => exact .inl ⟨_, rfl, rfl⟩

/-- FIELD fetches the fields one per visit, as `fetchFields` does. -/
theorem within_fieldsEnd (kinds : List FieldKind) (f : Fsm) :
    (f.nextField kinds).Within kinds.length fun g =>
      SameStep f g ∧ g.FieldsEnd (fetchFields f.engine.prog.read kinds f.latches (f.npc + 1)) := by
  induction kinds generalizing f with
  | nil => exact .now ⟨⟨rfl, rfl, rfl, rfl⟩, rfl, rfl⟩
  | cons kind rest ih =>
    refine .visit ?_
    have hfield : (f.nextField (kind :: rest)).phase = .field := rfl
    obtain ⟨l, hfetch, htick⟩ | ⟨e, hfetch, htick⟩ := tick_field hfield rfl
    · have hfields : fetchFields f.engine.prog.read (kind :: rest) f.latches (f.npc + 1) =
          fetchFields f.engine.prog.read rest l (f.npc + 1 + 1) := congrArg (Fetched.andThen · _) hfetch
      rw [htick, hfields]
      exact (ih _).mono (Nat.le_refl _) fun g ⟨⟨hengine, hcommand, hcount, hop⟩, hend⟩ =>
        ⟨⟨hengine, hcommand, hcount, hop⟩, hend⟩
    · have hfields : fetchFields f.engine.prog.read (kind :: rest) f.latches (f.npc + 1) = .error e :=
        congrArg (Fetched.andThen · _) hfetch
      rw [htick, hfields]
      exact .now ⟨⟨rfl, rfl, rfl, rfl⟩, rfl⟩

/-- DONE of the step that `f` serves: the outcome, the state after the step, and the command with the steps counted
before this one. -/
def DoneWith (f : Fsm) (o : StepOutcome) (t : State) (g : Fsm) : Prop :=
  g.phase = .done o ∧ g.engine = t ∧ g.command = f.command ∧ g.count = f.count

theorem DoneWith.of_sameStep {f g h : Fsm} {o : StepOutcome} {t : State} (hfg : SameStep f g)
    (hd : g.DoneWith o t h) : f.DoneWith o t h := by
  obtain ⟨hphase, hengine, hcommand, hcount⟩ := hd
  exact ⟨hphase, hengine, hcommand.trans hfg.command, hcount.trans hfg.count⟩

section
variable {f : Fsm} {o : StepOutcome} {t : State}

/-- FAULT gives what run-once gives after a faulting step (R97). -/
theorem within_done_of_fault {k : Fault} (hphase : f.phase = .fault k) (hstep : step f.engine = .fault k)
    (ho : runOnce f.engine = .ok (o, t)) : f.Within 1 (f.DoneWith o t) := by
  rw [runOnce_of_fault hstep] at ho
  cases ho
  have htick : f.tick = f.tickFault k := by rw [tick, hphase]
  refine .visit (.now ?_)
  rw [htick]
  exact ⟨rfl, rfl, rfl, rfl⟩

/-- EXECUTE with the step's instruction gives what run-once gives (R54, R56), a fault by way of FAULT. -/
theorem within_done_of_execute (hphase : f.phase = .execute) (hstep : step f.engine = exec f.assemble f.engine)
    (ho : runOnce f.engine = .ok (o, t)) : f.Within 2 (f.DoneWith o t) := by
  have htick : f.tick = f.tickExecute := by rw [tick, hphase]
  refine .visit ?_
  cases hs : step f.engine with
  | next u =>
    rw [runOnce_of_next hs] at ho
    cases ho
    rw [htick, tickExecute, ← hstep, hs]
    exact .now ⟨rfl, rfl, rfl, rfl⟩
  | fault k =>
    have hfail : f.tick = f.fail k := by rw [htick, tickExecute, ← hstep, hs]
    rw [hfail]
    exact within_done_of_fault rfl hs ho
  | refused r => exact absurd hs (noStepIsRefused _ r)

/-- From the first field, or EXECUTE where the opcode has none, to DONE. -/
theorem within_done_of_fields {b : Byte} (hop : f.op = Opcode.ofByte b) (hlatches : f.latches = ⟨[], 0#16⟩)
    (hnpc : f.npc = f.engine.pc.toNat) (hb : f.engine.prog.read f.engine.pc.toNat = some b)
    (ho : runOnce f.engine = .ok (o, t)) : (f.nextField (Opcode.ofByte b).fields).Within 5 (f.DoneWith o t) := by
  have hfields := (within_fieldsEnd (Opcode.ofByte b).fields f).mono (length_fields_le _) fun _ => id
  refine hfields.trans (m := 2) fun g ⟨hsame, hend⟩ => ?_
  rw [hlatches, hnpc] at hend
  have ho' : runOnce g.engine = .ok (o, t) := by rw [hsame.engine, ho]
  have hdone : g.Within 2 (g.DoneWith o t) := by
    cases hf : fetchFields f.engine.prog.read (Opcode.ofByte b).fields ⟨[], 0#16⟩ (f.engine.pc.toNat + 1) with
    | ok l n =>
      rw [hf] at hend
      obtain ⟨hexec, hl⟩ := hend
      refine within_done_of_execute hexec ?_ ho'
      rw [assemble_eq, hsame.op, hop, hl, hsame.engine]
      exact step_of_fields_ok hb hf
    | error e =>
      rw [hf] at hend
      have hstep : step g.engine = .fault (faultOfDecode e) := by
        rw [hsame.engine]
        exact step_of_fields_error hb hf
      exact (within_done_of_fault hend hstep ho').mono (by decide) fun _ => id
  exact hdone.mono (Nat.le_refl 2) fun _ hd => hd.of_sameStep hsame

/-- From OPCODE to DONE: run-once in at most six visits. -/
theorem within_done_of_opcode (hphase : f.phase = .opcode) (hnpc : f.npc = f.engine.pc.toNat)
    (ho : runOnce f.engine = .ok (o, t)) : f.Within 6 (f.DoneWith o t) := by
  have htick : f.tick = f.tickOpcode := by rw [tick, hphase]
  refine .visit ?_
  rw [htick, tickOpcode, hnpc]
  cases hb : f.engine.prog.read f.engine.pc.toNat with
  | none =>
    have hdone := within_done_of_fault (f := f.fail (.malformedStream f.engine.pc.toNat)) rfl
      (step_of_error (decodeAt_of_none hb)) ho
    exact hdone.mono (by decide) fun _ => id
  | some b =>
    exact within_done_of_fields
      (f := { f with npc := f.engine.pc.toNat, op := Opcode.ofByte b, regs := [], imm := 0#16 }) rfl rfl rfl hb ho

end

end Fsm

end Sys2Proof.Machine
end

section
/-! The dispatch FSM against run-once, the run loop and the host's operations (R57, R62 to R65). Settles O54, O55 and
O57. -/

namespace Sys2Proof.Machine

namespace Fsm

/-- IDLE at rest: no command is left, the architectural state is `t` and the last operation's reply is `reply`. -/
def AtRest (reply : Reply) (t : State) (f : Fsm) : Prop :=
  f.phase = .idle ∧ f.command = none ∧ f.engine = t ∧ f.report = some reply

/-- At rest the FSM stays as it is. -/
theorem AtRest.ticks_eq {reply : Reply} {t : State} {f : Fsm} (h : f.AtRest reply t) (n : Nat) : f.ticks n = f := by
  obtain ⟨hphase, hcommand, -, -⟩ := h
  have htick : f.tick = f := by simp [tick, hphase, tickIdle, hcommand]
  induction n with
  | zero => rfl
  | succ n ih => rw [ticks, htick, ih]

/-- An FSM at rest within `k` visits is at rest after `k` visits. -/
theorem Within.atRest {k : Nat} {f : Fsm} {reply : Reply} {t : State} (h : f.Within k (AtRest reply t)) :
    (f.ticks k).AtRest reply t := by
  obtain ⟨n, hn, hrest⟩ := h
  obtain ⟨m, rfl⟩ := Nat.exists_eq_add_of_le hn
  rwa [ticks_add, hrest.ticks_eq]

section
variable {f : Fsm} {o : StepOutcome} {t : State}

/-- A visit that finishes the command leaves the FSM at rest. -/
theorem within_atRest_of_finish {reply : Reply} (htick : f.tick = f.finish reply) (hengine : f.engine = t) :
    f.Within 1 (AtRest reply t) := by
  refine .visit (.now ?_)
  rw [htick]
  exact ⟨rfl, rfl, hengine, rfl⟩

/-- A step begun in IDLE comes to DONE with what run-once gives. -/
theorem within_done_of_idle (htick : f.tick = f.enterOpcode) (ho : runOnce f.engine = .ok (o, t)) :
    f.Within 7 (f.DoneWith o t) := by
  refine .visit ?_
  rw [htick]
  exact within_done_of_opcode (f := f.enterOpcode) rfl rfl ho

/-- A run-once command is served in at most eight visits. -/
theorem within_atRest_of_runOnce (hphase : f.phase = .idle) (hcommand : f.command = some .runOnce)
    (ho : runOnce f.engine = .ok (o, t)) : f.Within 8 (AtRest (.stepped o) t) := by
  have htick : f.tick = f.enterOpcode := by simp [tick, hphase, tickIdle, hcommand]
  refine (within_done_of_idle htick ho).trans (m := 1) fun g ⟨hdone, hengine, hcmd, _⟩ => ?_
  exact within_atRest_of_finish (by simp [tick, hdone, tickDone, hcmd, hcommand]) hengine

/-- A run's step begins in IDLE where both tests of R57 let it pass. -/
theorem tick_idle_of_proceeds {budget : Option Nat} (hphase : f.phase = .idle)
    (hcommand : f.command = some (.run budget)) (h : Proceeds budget f.count f.engine) : f.tick = f.enterOpcode := by
  simp [tick, hphase, tickIdle, hcommand, h.1, h.2]

end

/-- A run in progress goes on as the run loop does (R57): a visit of IDLE makes the tests, and a visit of DONE reports
the last outcome or counts the step. -/
theorem within_atRest_of_runsTo {budget : Option Nat} {fuel n : Nat} {s t : State} {r : RunResult}
    (h : RunsTo budget fuel n s r t) {f : Fsm} (hphase : f.phase = .idle) (hcommand : f.command = some (.run budget))
    (hcount : f.count = n) (hengine : f.engine = s) : ∃ k, f.Within k (AtRest (.ran r) t) := by
  induction h generalizing f with
  | endOfBuffer hend =>
    subst hengine
    exact ⟨1, within_atRest_of_finish (by simp [tick, hphase, tickIdle, hcommand, hend]) rfl⟩
  | stepLimit hpc hspent =>
    subst hengine hcount
    exact ⟨1, within_atRest_of_finish (by simp [tick, hphase, tickIdle, hcommand, hpc, hspent]) rfl⟩
  | halted h ho | faulted h ho =>
    subst hengine hcount
    refine ⟨8, (within_done_of_idle (tick_idle_of_proceeds hphase hcommand h) ho).trans (m := 1)
      fun g ⟨hdone, hengine, hcmd, _⟩ => ?_⟩
    exact within_atRest_of_finish (by simp [tick, hdone, tickDone, hcmd, hcommand]) hengine
  | continued h ho hrest ih =>
    subst hengine hcount
    refine (within_done_of_idle (tick_idle_of_proceeds hphase hcommand h) ho).exists_trans
      fun g ⟨hdone, hengine, hcmd, hcount⟩ => ?_
    have htick : g.tick = { g with phase := .idle, count := g.count + 1 } := by
      simp [tick, hdone, tickDone, hcmd, hcommand]
    obtain ⟨m, hm⟩ := ih (f := g.tick) (by rw [htick]) (by rw [htick, ← hcommand, ← hcmd]) (by rw [htick, hcount])
      (by rw [htick, hengine])
    exact ⟨m + 1, hm.visit⟩

end Fsm

/-- Settles O54: the started FSM is at rest within eight visits, and stays so. -/
theorem fsmRefinesRunOnce : Obligations.FsmRefinesRunOnce := by
  intro s t o ho
  have hstart : (Fsm.start .runOnce s).Within 8 (Fsm.AtRest (.stepped o) t) := Fsm.within_atRest_of_runOnce rfl rfl ho
  obtain ⟨hphase, hcommand, hengine, hreport⟩ := hstart.atRest
  exact ⟨hphase, hcommand, hengine, hreport, Fsm.acceptsHost_iff.2 ⟨hphase, hcommand⟩⟩

/-- Settles O55: the started FSM is a run in progress with no step counted. -/
theorem fsmRefinesRun : Obligations.FsmRefinesRun := by
  intro fuel budget s t r h
  obtain ⟨-, n, -, hrest⟩ :=
    Fsm.within_atRest_of_runsTo (.of_runLoop h) (f := Fsm.start (.run budget) s) rfl rfl rfl rfl
  exact ⟨n, hrest⟩

namespace Fsm

theorem transition_some (op : HostOp) (f : Fsm) : f.transition (some op) = (f.host op).getD f.tick := rfl

/-- What IDLE does with an operation brings the FSM to rest with the operation's reply and state: at once, or by serving
the command it has become. -/
theorem within_atRest_of_perform {f : Fsm} {op : HostOp} {fuel : Nat} {reply : Reply} {t : State}
    (hphase : f.phase = .idle) (hcommand : f.command = none) (h : perform fuel op f.engine = some (reply, t)) :
    ∃ k, (f.idleServe op).Within k (AtRest reply t) := by
  have hserved (x : Reply × State) : (f.served x).Within 0 (AtRest x.1 x.2) := .now ⟨hphase, hcommand, rfl, rfl⟩
  cases op with
  | construct | append r | inspect i =>
    cases h
    exact ⟨0, hserved _⟩
  | preload p =>
    cases hp : preload p f.engine with
    | some u | none =>
      simp only [perform, hp] at h
      cases h
      simp only [idleServe, hp]
      exact ⟨0, hserved _⟩
  | runOnce =>
    cases ho : runOnce f.engine with
    | error e => exact absurd ho (runOnce_ne_error _ e)
    | ok x =>
      simp only [perform, ho] at h
      cases h
      exact ⟨8, within_atRest_of_runOnce (f := f.take .runOnce) hphase rfl ho⟩
  | run budget =>
    cases hr : run fuel budget f.engine with
    | none => simp [perform, hr] at h
    | some x =>
      simp only [perform, hr] at h
      cases h
      exact within_atRest_of_runsTo (f := f.take (.run budget)) (.of_runLoop hr) hphase rfl rfl rfl

end Fsm

/-- Settles O57: a rejected operation leaves the visit of the phase; a taken one is served as above. -/
theorem fsmServesTheHostInIdleAlone : Obligations.FsmServesTheHostInIdleAlone := by
  refine ⟨fun f op hnot => ?_, fun f op fuel reply t hphase hcommand h => ?_⟩
  · obtain ⟨hidle, -⟩ | ⟨-, hreject⟩ := Fsm.host_cases op f
    · exact absurd hidle hnot
    · refine ⟨hreject, ?_⟩
      rw [Fsm.transition_some, hreject]
      rfl
  · obtain ⟨-, htaken⟩ | ⟨hnot, -⟩ := Fsm.host_cases op f
    · rw [Fsm.transition_some, htaken, Option.getD_some]
      obtain ⟨-, n, -, hrest⟩ := Fsm.within_atRest_of_perform hphase hcommand h
      exact ⟨n, hrest⟩
    · exact absurd ⟨hphase, hcommand⟩ hnot

end Sys2Proof.Machine
end

section
/-! LOAD's result (R41, R67). Settles O22. -/

namespace Sys2Proof.Machine

/-- A zero-extended immediate is below 2^31, so the signed reading is the immediate's value too (R67). -/
theorem signed_zext32 (v : Half) : signed (zext32 v) = (v.toNat : Int) := by
  have hlt : 2 * (zext32 v).toNat < 2 ^ 32 := by
    have := v.isLt
    rw [toNat_zext32]
    omega
  rw [signed, BitVec.toInt_eq_toNat_of_lt hlt, toNat_zext32]

/-- LOAD raises no fault of its own: it always writes its zero-extended immediate and goes on past its four bytes (R67). -/
theorem exec_load_eq_next (r : Reg) (imm : Half) (s : State) :
    exec (.load r imm) s = .next (latch .continued (setPc (s.pc + 4#32) (writeReg r (zext32 imm) s))) := rfl

/-- Settles O22: the written value is read back from the completion; what stays is the frame of the register writers. -/
theorem loadWritesTheZeroExtendedImmediate : Obligations.LoadWritesTheZeroExtendedImmediate := by
  intro r imm s
  have hexec := exec_load_eq_next r imm s
  obtain ⟨hregs, heqf, hrem, hheap, hprog, hparams⟩ := registerWritersFrame _ r s _ (.inl ⟨imm, rfl⟩) hexec
  refine ⟨_, hexec, ?_, ?_, hregs, rfl, rfl, heqf, hrem (by simp), hheap, hprog, hparams⟩
  · rw [readReg_latch, readReg_setPc, readReg_writeReg_same, toNat_zext32]
  · rw [readReg_latch, readReg_setPc, readReg_writeReg_same, signed_zext32]

end Sys2Proof.Machine
end

section
/-! What the arithmetic skeleton writes (R68, R69). Settles O24, O25 and O26. -/

namespace Sys2Proof.Machine

/-- Where the overflow law gives a word, the destination holds the exact result modulo 2^32, which is the result itself
where it fits, and the instruction goes on past its four bytes (R68, R69). -/
theorem writeExact_result {z : Int} {d : Reg} {s : State} (h : fitsSigned32 z ∨ s.params.overflowPolicy = .wrap) :
    ∃ t, writeExact z d s = .next t ∧ ((readReg d t).toNat : Int) = z % 4294967296 ∧
      (-2147483648 ≤ z → z ≤ 2147483647 → signed (readReg d t) = z) ∧
      t.pc = s.pc + 4#32 ∧ t.lastOutcome = some .continued := by
  refine ⟨_, writeExact_next h, ?_, fun hlo hhi => ?_, rfl, rfl⟩
  · rw [readReg_latch, readReg_setPc, readReg_writeReg_same, toNat_wrap32]
  · rw [readReg_latch, readReg_setPc, readReg_writeReg_same, signed_wrap32 ⟨hlo, hhi⟩]

/-- Settles O24: ADD is the skeleton on the sum of its signed operands. -/
theorem addWritesTheSum : Obligations.AddWritesTheSum := fun _ _ _ _ h => writeExact_result h

/-- Settles O25: SUB is the skeleton on the difference, the first operand being the minuend. -/
theorem subWritesTheDifference : Obligations.SubWritesTheDifference := fun _ _ _ _ h => writeExact_result h

/-- Settles O26: MUL is the skeleton on the product. -/
theorem mulWritesTheProduct : Obligations.MulWritesTheProduct := fun _ _ _ _ h => writeExact_result h

end Sys2Proof.Machine
end

section
/-! The division law (R73, R74): the size and the sign of the remainder, the range of both results, and what DIV writes.
Settles O27 and O28. -/

namespace Sys2Proof.Machine

variable {va vb : Int}

theorem truncRemainder_eq_tmod (va vb : Int) : truncRemainder va vb = va.tmod vb := by
  rw [truncRemainder, truncQuotient, Int.tmod_def, Int.mul_comm vb]

/-- The remainder is smaller than the divisor (R74). -/
theorem abs_truncRemainder_lt (va : Int) (h : vb ≠ 0) : |truncRemainder va vb| < |vb| := by
  rw [truncRemainder_eq_tmod, Int.abs_eq_natAbs, Int.abs_eq_natAbs, Int.natAbs_tmod]
  exact_mod_cast Nat.mod_lt va.natAbs (Int.natAbs_pos.2 h)

/-- The remainder is zero or has the dividend's sign (R74). -/
theorem truncRemainder_sign (va vb : Int) :
    truncRemainder va vb = 0 ∨ (0 < truncRemainder va vb ∧ 0 < va) ∨ (truncRemainder va vb < 0 ∧ va < 0) := by
  have hpos (a : Int) (h : 0 ≤ a) : 0 ≤ a.tmod vb := Int.tmod_nonneg vb h
  have hneg := hpos (-va)
  rw [Int.neg_tmod] at hneg
  have hzero : va = 0 → va.tmod vb = 0 := by
    rintro rfl
    exact Int.zero_tmod vb
  rw [truncRemainder_eq_tmod]
  have hva := hpos va
  omega

/-- The remainder never overflows (R74): it is smaller than a divisor of 32 bits. -/
theorem fitsSigned32_truncRemainder (va : Int) (h0 : vb ≠ 0) (hb : fitsSigned32 vb) :
    fitsSigned32 (truncRemainder va vb) := by
  have hlt := abs_truncRemainder_lt va h0
  rw [Int.abs_eq_natAbs, Int.abs_eq_natAbs] at hlt
  omega

/-- The quotient of a dividend of 32 bits is never too small: it is no larger than the dividend in size. -/
theorem le_truncQuotient (ha : fitsSigned32 va) (vb : Int) : -2147483648 ≤ truncQuotient va vb := by
  have hle : (truncQuotient va vb).natAbs ≤ va.natAbs := Int.natAbs_tdiv_le_natAbs va vb
  omega

/-- Settles O28: the quotient by its size against the dividend's, the remainder by its size against the divisor's. -/
theorem quotientOverflowsInExactlyOneCase : Obligations.QuotientOverflowsInExactlyOneCase := fun va vb h0 =>
  ⟨not_iff_comm.1 (fitsSigned32_truncQuotient_iff (fitsSigned32_signed va)).symm,
    fitsSigned32_truncRemainder _ h0 (fitsSigned32_signed vb)⟩

/-- DIV by a non-zero divisor is the skeleton on the quotient, after `rem` was set (R73). -/
theorem execDiv_of_ne_zero {a b d : Reg} {s : State} (h : signedOperand b s ≠ 0) :
    execDiv a b d s = writeExact (truncQuotient (signedOperand a s) (signedOperand b s)) d
      (setRem (wrap32 (truncRemainder (signedOperand a s) (signedOperand b s))) s) := by
  obtain ⟨h', -⟩ | ⟨-, h'⟩ := execDiv_cases a b d s
  · exact absurd h' h
  · exact h'

/-- The skeleton leaves `rem` as it finds it. -/
theorem rem_of_writeExact {z : Int} {d : Reg} {s t : State} (h : writeExact z d s = .next t) : t.rem = s.rem := by
  rw [writeExact_eq_next h]
  rfl

/-- Settles O27: the quotient goes through the skeleton, the remainder was set before it and fits. -/
theorem divWritesQuotientAndRemainder : Obligations.DivWritesQuotientAndRemainder := by
  intro a b d s h0 hover
  have ha : fitsSigned32 (signed (readReg a s)) := fitsSigned32_signed _
  have hr := fitsSigned32_truncRemainder (signed (readReg a s)) h0 (fitsSigned32_signed _)
  rw [← fitsSigned32_truncQuotient_iff ha] at hover
  obtain ⟨t, ht, hmod, hfits, hpc, hout⟩ := writeExact_result (d := d)
    (s := setRem (wrap32 (truncRemainder (signed (readReg a s)) (signed (readReg b s)))) s) hover
  have hrem := rem_of_writeExact ht
  rw [setRem_rem] at hrem
  refine ⟨t, _, _, (execDiv_of_ne_zero h0).trans ht, (add_sub_cancel _ _).symm, abs_truncRemainder_lt _ h0,
    truncRemainder_sign _ _, hmod, hfits (le_truncQuotient ha _), ?_, ?_, hpc, hout⟩
  · rw [hrem, toNat_wrap32]
    rfl
  · rw [hrem, signed_wrap32 hr]
    rfl

end Sys2Proof.Machine
end

section
/-! Where the overflow fault is raised (R69, R96). Settles O29. -/

namespace Sys2Proof.Machine

theorem writeExact_overflows_iff {z : Int} {d : Reg} {s : State} :
    writeExact z d s = .fault .arithmeticOverflow ↔ s.params.overflowPolicy = .fault ∧ ¬ fitsSigned32 z := by
  obtain ⟨hfits, h⟩ | ⟨hz, hp, h⟩ := writeExact_cases z d s
  · refine iff_of_false (by simp [h]) fun ⟨hp, hz⟩ => ?_
    simp [hp, hz] at hfits
  · exact iff_of_true h ⟨hp, hz⟩

theorem execDiv_overflows_iff {a b d : Reg} {s : State} :
    execDiv a b d s = .fault .arithmeticOverflow ↔ s.params.overflowPolicy = .fault ∧
      signedOperand a s = -2147483648 ∧ signedOperand b s = -1 := by
  obtain ⟨hzero, h⟩ | ⟨-, h⟩ := execDiv_cases a b d s
  · simp [h, hzero]
  · have ha : fitsSigned32 (signedOperand a s) := fitsSigned32_signed (readReg a s)
    rw [h, writeExact_overflows_iff, setRem_params, fitsSigned32_truncQuotient_iff ha, not_not]

/-- ALOC's only own fault is HeapRange (R95). -/
theorem execAloc_ne_overflow (r : Reg) (s : State) : execAloc r s ≠ .fault .arithmeticOverflow := by
  obtain ⟨-, h⟩ | ⟨-, h⟩ := execAloc_cases r s <;> simp [h]

/-- Settles O29: the four arithmetic instructions by their skeleton, ALOC by its one fault; every other instruction
completes. -/
theorem overflowFaultOnlyUnderFaultPolicy : Obligations.OverflowFaultOnlyUnderFaultPolicy := by
  intro i s
  have hcompletes := (execCompletesExactlyWhereNoFaultIsDue i s).2
  cases i with
  | add | sub | mul =>
    refine writeExact_overflows_iff.trans (and_congr_right fun _ => ?_)
    simp [signedOperand]
  | div =>
    refine execDiv_overflows_iff.trans (and_congr_right fun _ => ?_)
    simp [signedOperand]
  | aloc r => exact iff_of_false (execAloc_ne_overflow r s) (by simp)
  | _ =>
    obtain ⟨t, ht⟩ := hcompletes trivial
    exact iff_of_false (by simp [ht]) (by simp)

end Sys2Proof.Machine
end

section
/-! What a halt leaves unchanged (R75, R76, R77). Settles O31 and O32. -/

namespace Sys2Proof.Machine

/-- A halt consumes one byte, reports its cause, and changes nothing but `pc` (R55). -/
theorem haltStep_frame (c : HaltCause) (s : State) : ∃ t,
    haltStep c s = .next t ∧ t.pc = s.pc + 1#32 ∧ t.lastOutcome = some (.halted c) ∧
    sameRegs s t ∧ t.eqf = s.eqf ∧ t.rem = s.rem ∧ sameHeap s t ∧ sameProgram s t ∧ t.params = s.params := by
  have hregs : sameRegs s (latch (.halted c) (setPc (npc 1 s) s)) := fun r => by rw [readReg_latch, readReg_setPc]
  exact ⟨_, rfl, rfl, rfl, hregs, rfl, rfl, ⟨heapByte_congr rfl, rfl⟩, ⟨fun _ => rfl, rfl⟩, rfl⟩

/-- Settles O31: HLT is a halt with its own cause. -/
theorem hltHaltsAfterOneByte : Obligations.HltHaltsAfterOneByte := haltStep_frame .hlt

/-- Settles O32: the seven constructors are those of opcode ILLEGAL, and each of them is the halt of that cause. -/
theorem illegalAndUnassignedHaltAfterOneByte : Obligations.IllegalAndUnassignedHaltAfterOneByte := by
  intro i s h
  have hop : i.opcode = .illegal := by
    obtain rfl | ⟨o, rfl⟩ | ⟨o, rfl⟩ | ⟨o, rfl⟩ | ⟨o, rfl⟩ | ⟨o, rfl⟩ | ⟨o, rfl⟩ := h <;> rfl
  rw [exec_of_illegal hop]
  exact haltStep_frame .illegal s

end Sys2Proof.Machine
end

section
/-! The four jumps (R78 to R82): where they go, what they leave unchanged, and what a not-taken JMPE, which consumes two of
its record's four bytes, runs into (R109). Settles O33, O34, O41, O46 and O47. -/

namespace Sys2Proof

/-- The bytes 15, r are a JMPE; the other two bytes of its record are not fetched (R37, R43). -/
theorem decodeAt_jmpe {rd : ByteSource} {p : Nat} {r : Reg} (hop : rd p = some 15#8)
    (hreg : rd (p + 1) = some (regByte r)) : decodeAt rd p = .ok (.jmpe r) (p + 2) :=
  decodeAt_eq_ok.2 ⟨rfl, by simp [encode, hop, hreg]⟩

end Sys2Proof

namespace Sys2Proof.Machine

/-- Settles O33: JMP's target is the register itself; the two relative jumps add and subtract modulo 2^32. -/
theorem unconditionalJumpsSetPc : Obligations.UnconditionalJumpsSetPc := by
  intro r s
  refine ⟨⟨_, rfl, rfl, rfl⟩, ⟨_, rfl, ?_, rfl⟩, ⟨_, rfl, ?_, rfl⟩⟩
  · show (s.pc + 2#32 + readReg r s).toNat = (s.pc.toNat + 2 + (readReg r s).toNat) % 4294967296
    simp [BitVec.toNat_add]
  · show ((s.pc + 2#32 - readReg r s).toNat : Int) = (s.pc.toNat + 2 - (readReg r s).toNat) % 4294967296
    have hv := (readReg r s).isLt
    rw [BitVec.toNat_sub, BitVec.toNat_add, BitVec.toNat_ofNat]
    omega

/-- Settles O34: JMPE always completes, and the flag chooses between its two targets. -/
theorem jmpeFollowsTheFlag : Obligations.JmpeFollowsTheFlag := fun r s =>
  ⟨_, execJmpe_eq r s, fun h => if_pos h, fun h => if_neg (by simp [h]), rfl, rfl⟩

/-- Settles O41: the opcode of a jump is none that writes another piece of state than `pc`. -/
theorem jumpFrame : Obligations.JumpFrame := by
  rintro i s t ⟨r, hform⟩ h
  have hc := completed_of_exec h
  have hop : ¬ WritesRegister i.opcode ∧ ¬ IsComparison i.opcode ∧ i.opcode ≠ .div ∧ i.opcode ≠ .aloc := by
    obtain rfl | rfl | rfl | rfl := hform <;> simp [Instr.opcode]
  obtain ⟨hreg, hcmp, hdiv, haloc⟩ := hop
  have hheap := hc.heapLen_eq haloc
  exact ⟨hc.sameRegs hreg, hc.eqf_eq hcmp, hc.rem_eq hdiv, ⟨heapByte_congr hheap, hheap⟩, hc.sameProgram, hc.params_eq⟩

/-- The state after a JMPE that is not taken: two bytes on and not four (R82). -/
def afterJmpe (s : State) : State := latch .continued (setPc (npc 2 s) s)

section
variable {s : State} {r : Reg} (hop : s.prog.read s.pc.toNat = some 15#8)
  (hreg : s.prog.read (s.pc.toNat + 1) = some (regByte r))
include hop hreg

/-- With JMPE's two bytes at `pc` and the flag true, the step goes to the register's value (R82). -/
theorem step_of_jmpe_taken (heqf : s.eqf = true) : step s = continueAt (readReg r s) s :=
  (step_of_fetch (decodeAt_jmpe hop hreg)).trans (if_pos heqf)

/-- With JMPE's two bytes at `pc` and the flag false, the step falls through (R82). -/
theorem step_of_jmpe_not_taken (heqf : s.eqf = false) : step s = .next (afterJmpe s) :=
  (step_of_fetch (decodeAt_jmpe hop hreg)).trans (if_neg (by simp [heqf]))

end

theorem afterJmpe_pc (s : State) : (afterJmpe s).pc = s.pc + 2#32 := rfl

/-- What stands two bytes on is at `pc` after the not-taken JMPE: a valid state's buffer ends before `pc` wraps (R12). -/
theorem read_afterJmpe {s : State} {b : Byte} (hv : s.Valid) (hb : s.prog.read (s.pc.toNat + 2) = some b) (k : Nat) :
    (afterJmpe s).prog.read ((afterJmpe s).pc.toNat + k) = s.prog.read (s.pc.toNat + 2 + k) := by
  obtain ⟨⟨-, hprogMax, -⟩, hwf, hsize, -⟩ := hv
  have hin := Memory.lt_size_of_read hwf hb
  have hpc : (afterJmpe s).pc.toNat = s.pc.toNat + 2 := by
    rw [afterJmpe_pc, BitVec.toNat_add, BitVec.toNat_ofNat]
    omega
  rw [hpc]
  rfl

/-- Settles O46: the second JMPE, two bytes on, is not taken either, since the first one kept the flag. -/
theorem doubledJmpeKeepsInStep : Obligations.DoubledJmpeKeepsInStep := by
  intro s r hv h0 h1 h2 h3
  refine ⟨step_of_jmpe_taken h0 h1, fun heqf => ⟨_, step_of_jmpe_not_taken h0 h1 heqf, ?_⟩⟩
  have hat := read_afterJmpe hv h2
  have hsecond : step (afterJmpe s) = .next (afterJmpe (afterJmpe s)) :=
    step_of_jmpe_not_taken ((hat 0).trans h2) ((hat 1).trans h3) heqf
  have hpc : (afterJmpe (afterJmpe s)).pc = s.pc + 4#32 := BitVec.add_assoc s.pc 2#32 2#32
  rw [hsecond, ← hpc]
  rfl

/-- Settles O47: two bytes on, the padding is a LOAD of register 0, with its immediate in the following record. -/
theorem notTakenJmpeFallsIntoItsPadding : Obligations.NotTakenJmpeFallsIntoItsPadding := by
  intro s r c0 c1 hv heqf h0 h1 h2 h3 h4 h5
  have hat := read_afterJmpe hv h2
  have hload : fetchInstr (afterJmpe s) = .ok (.load 0 (bigEndian c0 c1)) ((afterJmpe s).pc.toNat + 4) :=
    decodeAt_load ((hat 0).trans h2) ((hat 1).trans h3) ((hat 2).trans h4) ((hat 3).trans h5)
  obtain ⟨u, hu, hvalue, -, hregs, hpc, -⟩ := loadWritesTheZeroExtendedImmediate 0 (bigEndian c0 c1) (afterJmpe s)
  refine ⟨_, u, step_of_jmpe_not_taken h0 h1 heqf, (step_of_fetch hload).trans hu, ?_, hregs, ?_⟩
  · rw [hvalue, toNat_bigEndian]
  · rw [hpc, afterJmpe_pc, BitVec.add_assoc]
    rfl

end Sys2Proof.Machine
end

section
/-! The six comparisons (R83 to R89): what they make of the flag and what they leave unchanged. Settles O35, O36 and O40. -/

namespace Sys2Proof.Machine

/-- A comparison completes past its four bytes with the flag true exactly where its relation holds of the two signed
readings (R83). -/
theorem compareWith_result {rel : Int → Int → Bool} {a b : Reg} {s : State} {p : Prop}
    (h : rel (signed (readReg a s)) (signed (readReg b s)) = true ↔ p) :
    ∃ t, compareWith rel a b s = .next t ∧ (t.eqf = true ↔ p) ∧ t.pc = s.pc + 4#32 ∧
      t.lastOutcome = some .continued :=
  ⟨_, compareWith_eq rel a b s, h, rfl, rfl⟩

section
variable (v w : Word)

/-- The signed reading is injective, so EQ compares the 32-bit patterns (R84). -/
theorem relEq_signed : relEq (signed v) (signed w) = true ↔ v = w := decide_eq_true_iff.trans BitVec.toInt_inj

theorem relNeq_signed : relNeq (signed v) (signed w) = true ↔ v ≠ w :=
  decide_eq_true_iff.trans (not_congr BitVec.toInt_inj)

/-! The order relations on signed readings are the signed orders of words, `≥` and `>` with the operands exchanged. -/

theorem relGte_signed : relGte (signed v) (signed w) = true ↔ w.sle v = true := Iff.rfl

theorem relLte_signed : relLte (signed v) (signed w) = true ↔ v.sle w = true := Iff.rfl

theorem relGt_signed : relGt (signed v) (signed w) = true ↔ w.slt v = true := Iff.rfl

theorem relLt_signed : relLt (signed v) (signed w) = true ↔ v.slt w = true := Iff.rfl

end

/-- Settles O35: each is the comparison with its relation, which on signed readings is (in)equality of the words. -/
theorem equalityComparisonsSetTheFlag : Obligations.EqualityComparisonsSetTheFlag := fun _ _ _ _ =>
  ⟨compareWith_result (relEq_signed _ _), compareWith_result (relNeq_signed _ _)⟩

/-- Settles O36: each is the comparison with its relation, which on signed readings is the signed order of the words. -/
theorem orderComparisonsSetTheFlag : Obligations.OrderComparisonsSetTheFlag := fun _ _ _ _ =>
  ⟨compareWith_result (relGte_signed _ _), compareWith_result (relLte_signed _ _),
    compareWith_result (relGt_signed _ _), compareWith_result (relLt_signed _ _)⟩

/-- Settles O40: the opcode of a comparison is none that writes another piece of state than `pc` and the flag. -/
theorem comparisonFrame : Obligations.ComparisonFrame := by
  rintro i s t ⟨a, b, p, hform⟩ h
  have hc := completed_of_exec h
  have hop : ¬ WritesRegister i.opcode ∧ i.opcode ≠ .div ∧ i.opcode ≠ .aloc := by
    obtain rfl | rfl | rfl | rfl | rfl | rfl := hform <;> simp [Instr.opcode]
  obtain ⟨hreg, hdiv, haloc⟩ := hop
  have hheap := hc.heapLen_eq haloc
  exact ⟨hc.sameRegs hreg, hc.rem_eq hdiv, ⟨heapByte_congr hheap, hheap⟩, hc.sameProgram, hc.params_eq⟩

end Sys2Proof.Machine
end

section
/-! Where ALOC's fault is raised and what a completed ALOC leaves unchanged (R90, R95). Settles O38 and O42. -/

namespace Sys2Proof.Machine

/-- ALOC faults exactly where the length it asks for is out of 0 to HEAP_MAX (R95). -/
theorem execAloc_heapRange_iff {r : Reg} {s : State} :
    execAloc r s = .fault .heapRange ↔ requestedLength r s < 0 ∨ (s.params.heapMax : Int) < requestedLength r s := by
  obtain ⟨hout, h⟩ | ⟨hin, h⟩ := execAloc_cases r s
  · exact iff_of_true h hout
  · refine iff_of_false (by simp [h]) ?_
    omega

/-- The arithmetic skeleton's only own fault is the overflow (R69). -/
theorem writeExact_ne_heapRange (z : Int) (d : Reg) (s : State) : writeExact z d s ≠ .fault .heapRange := by
  obtain ⟨-, h⟩ | ⟨-, -, h⟩ := writeExact_cases z d s <;> simp [h]

/-- DIV's own faults are the zero divisor and the overflow (R94, R96). -/
theorem execDiv_ne_heapRange (a b d : Reg) (s : State) : execDiv a b d s ≠ .fault .heapRange := by
  obtain ⟨-, h⟩ | ⟨-, h⟩ := execDiv_cases a b d s
  · simp [h]
  · rw [h]
    exact writeExact_ne_heapRange _ d _

/-- Settles O38: ALOC by its own lemma; the arithmetic instructions raise other faults, and every other instruction
completes. -/
theorem heapRangeExactlyOutOfBounds : Obligations.HeapRangeExactlyOutOfBounds := by
  intro i s
  have hcompletes := (execCompletesExactlyWhereNoFaultIsDue i s).2
  cases i with
  | aloc r p q =>
    refine execAloc_heapRange_iff.trans ?_
    simp [requestedLength, signedOperand]
  | add | sub | mul => exact iff_of_false (writeExact_ne_heapRange _ _ s) (by simp)
  | div a b d => exact iff_of_false (execDiv_ne_heapRange a b d s) (by simp)
  | _ =>
    obtain ⟨t, ht⟩ := hcompletes trivial
    exact iff_of_false (by simp [ht]) (by simp)

/-- Settles O42: ALOC's opcode is none that writes a register, the flag or `rem`. -/
theorem alocFrame : Obligations.AlocFrame := by
  intro r p q s t h
  have hc := completed_of_exec h
  exact ⟨hc.sameRegs (by simp [Instr.opcode]), hc.eqf_eq (by simp [Instr.opcode, IsComparison]),
    hc.rem_eq (by simp [Instr.opcode]), hc.sameProgram, hc.params_eq⟩

end Sys2Proof.Machine
end

section
/-! The faults of execution proper (R94 to R96), said once, and DIV's among them. Settles O30. -/

namespace Sys2Proof.Machine

/-- The arithmetic skeleton's only fault is the overflow (R69). -/
theorem overflow_of_writeExact_fault {z : Int} {d : Reg} {s : State} {k : Fault} (h : writeExact z d s = .fault k) :
    k = .arithmeticOverflow := by
  obtain ⟨-, h'⟩ | ⟨-, -, h'⟩ := writeExact_cases z d s
  · cases h'.symm.trans h
  · cases h'.symm.trans h
    rfl

/-- DIV's faults: the zero divisor's, or the overflow (R73). -/
theorem execDiv_fault_cases {a b d : Reg} {s : State} {k : Fault} (h : execDiv a b d s = .fault k) :
    (k = .divideByZero ∧ signedOperand b s = 0) ∨ k = .arithmeticOverflow := by
  obtain ⟨hzero, h'⟩ | ⟨-, h'⟩ := execDiv_cases a b d s
  · cases h'.symm.trans h
    exact .inl ⟨rfl, hzero⟩
  · exact .inr (overflow_of_writeExact_fault (h'.symm.trans h))

/-- Everything an instruction can raise once it is decoded (R94, R95, R96). -/
theorem exec_fault_cases {i : Instr} {s : State} {k : Fault} (h : exec i s = .fault k) :
    (k = .divideByZero ∧ ∃ a b d, i = .div a b d ∧ signedOperand b s = 0) ∨ k = .heapRange ∨
      k = .arithmeticOverflow := by
  have hcompletes := (execCompletesExactlyWhereNoFaultIsDue i s).2
  cases i with
  | div a b d =>
    obtain ⟨rfl, hzero⟩ | rfl := execDiv_fault_cases h
    · exact .inl ⟨rfl, a, b, d, rfl, hzero⟩
    · exact .inr (.inr rfl)
  | add | sub | mul => exact .inr (.inr (overflow_of_writeExact_fault h))
  | aloc => exact .inr (.inl (heapRange_of_aloc_fault rfl h))
  | _ =>
    obtain ⟨t, ht⟩ := hcompletes trivial
    cases ht.symm.trans h

theorem exec_divideByZero_iff {i : Instr} {s : State} :
    exec i s = .fault .divideByZero ↔ ∃ a b d, i = .div a b d ∧ signedOperand b s = 0 := by
  constructor
  · intro h
    obtain ⟨-, hdiv⟩ | hk | hk := exec_fault_cases h
    · exact hdiv
    · cases hk
    · cases hk
  · rintro ⟨a, b, d, rfl, hzero⟩
    obtain ⟨-, h⟩ | ⟨hne, -⟩ := execDiv_cases a b d s
    · exact h
    · exact absurd hzero hne

/-- Settles O30: a decode raises no DivideByZero, so the step raises it exactly where the decoded instruction does. -/
theorem divideByZeroExactlyOnZeroDivisor : Obligations.DivideByZeroExactlyOnZeroDivisor := by
  refine ⟨fun _ _ => exec_divideByZero_iff, fun s => ?_⟩
  cases hf : fetchInstr s with
  | ok i n =>
    rw [step_of_fetch hf, exec_divideByZero_iff]
    simp [signedOperand, and_assoc]
  | error e =>
    rw [step_of_error hf]
    cases e <;> simp [faultOfDecode]

end Sys2Proof.Machine
end

section
/-! The first field that is missing or a bad register decides the error of a decode (R49, R51, R98), and the stream and
index faults of a step are the errors of its decode (R92, R93). Settles O9, O10 and O59. -/

namespace Sys2Proof

/-- What a field at offset `p` raises when it is fetched, by its kind (R49, R51). -/
inductive FieldError (rd : ByteSource) (p : Nat) : FieldKind → DecodeError → Prop
  | missing {kind : FieldKind} (h : rd p = none) : FieldError rd p kind (.malformedStream p)
  | badRegister {v : Byte} (h : rd p = some v) (hv : 32 ≤ v.toNat) : FieldError rd p .reg (.invalidRegisterIndex v)

/-- A field of a kind is good at offset `p`: its byte is there, and a register's is below 32 (R42, R51). -/
abbrev GoodField (rd : ByteSource) (p : Nat) (kind : FieldKind) : Prop :=
  ∃ v, rd p = some v ∧ (kind = .reg → v.toNat < 32)

theorem goodField_or_fieldError (rd : ByteSource) (p : Nat) (kind : FieldKind) :
    GoodField rd p kind ∨ ∃ e, FieldError rd p kind e := by
  cases hv : rd p with
  | none => exact .inr ⟨_, .missing hv⟩
  | some v =>
    by_cases hbad : kind = .reg ∧ 32 ≤ v.toNat
    · obtain ⟨rfl, hge⟩ := hbad
      exact .inr ⟨_, .badRegister hv hge⟩
    · exact .inl ⟨v, hv, fun hreg => Nat.lt_of_not_le fun hge => hbad ⟨hreg, hge⟩⟩

theorem fetchField_of_goodField {rd : ByteSource} {p : Nat} {kind : FieldKind} (l : Latches)
    (h : GoodField rd p kind) : ∃ l', fetchField rd kind l p = .ok l' (p + 1) := by
  obtain ⟨v, hv, hreg⟩ := h
  cases kind with
  | reg =>
    have hr : regOfByte v = some ⟨v.toNat, hreg rfl⟩ := regOfByte_eq_some.2 rfl
    exact ⟨{ l with regs := l.regs ++ [⟨v.toNat, hreg rfl⟩] }, by simp [fetchField, fetchReg, fetchByte_of_some hv, hr]⟩
  | imm | pad => exact ⟨_, by rw [fetchField, fetchByte_of_some hv, Fetched.andThen_ok]⟩

theorem fetchField_of_fieldError {rd : ByteSource} {p : Nat} {kind : FieldKind} {e : DecodeError} (l : Latches)
    (h : FieldError rd p kind e) : fetchField rd kind l p = .error e := by
  cases h with
  | missing hnone => exact fetchField_of_none hnone
  | badRegister hv hge => simp [fetchField, fetchReg, fetchByte_of_some hv, regOfByte_eq_none.2 hge]

theorem FieldError.not_goodField {rd : ByteSource} {p : Nat} {kind : FieldKind} {e : DecodeError}
    (h : FieldError rd p kind e) : ¬ GoodField rd p kind := by
  intro hgood
  obtain ⟨l, hok⟩ := fetchField_of_goodField ⟨[], 0#16⟩ hgood
  cases hok.symm.trans (fetchField_of_fieldError _ h)

/-- A value that a successful fetch turns into another leaves the fetch's errors as they are. -/
theorem Fetched.andThen_ok_eq_error {α β : Type} {f : Fetched α} {g : α → β} {e : DecodeError} :
    (f.andThen fun v n => .ok (g v) n) = .error e ↔ f = .error e := by cases f <;> simp

/-- The fields of kinds `fs` from `p` on raise `e`: behind good fields stands one that raises it. -/
def FirstFieldError (rd : ByteSource) (p : Nat) (fs : List FieldKind) (e : DecodeError) : Prop :=
  ∃ k kind, fs[k]? = some kind ∧ GoodFields rd p (fs.take k) ∧ FieldError rd (p + k) kind e

theorem firstFieldError_cons {rd : ByteSource} {p : Nat} {kind : FieldKind} {fs : List FieldKind} {e : DecodeError} :
    FirstFieldError rd p (kind :: fs) e ↔ FieldError rd p kind e ∨
      GoodField rd p kind ∧ FirstFieldError rd (p + 1) fs e := by
  constructor
  · rintro ⟨k, kind', hk, hgood, he⟩
    cases k with
    | zero =>
      cases hk
      exact .inl he
    | succ k =>
      obtain ⟨hfirst, hrest⟩ := goodFields_cons.1 hgood
      rw [Nat.add_comm k, ← Nat.add_assoc] at he
      exact .inr ⟨hfirst, k, kind', hk, hrest, he⟩
  · rintro (he | ⟨hfirst, k, kind', hk, hrest, he⟩)
    · exact ⟨0, kind, rfl, goodFields_nil rd p, he⟩
    · rw [Nat.add_assoc, Nat.add_comm 1] at he
      exact ⟨k + 1, kind', hk, goodFields_cons.2 ⟨hfirst, hrest⟩, he⟩

/-- Fetching fields one by one ends in the first error among them (R98). -/
theorem fetchFields_eq_error_iff {rd : ByteSource} {fs : List FieldKind} {l : Latches} {p : Nat} {e : DecodeError} :
    fetchFields rd fs l p = .error e ↔ FirstFieldError rd p fs e := by
  induction fs generalizing l p with
  | nil => simp [fetchFields, FirstFieldError]
  | cons kind fs ih =>
    rw [fetchFields, firstFieldError_cons]
    obtain hgood | ⟨e', he'⟩ := goodField_or_fieldError rd p kind
    · obtain ⟨l', hfetch⟩ := fetchField_of_goodField l hgood
      have hno : ¬ FieldError rd p kind e := fun he => he.not_goodField hgood
      rw [hfetch, Fetched.andThen_ok, ih, or_iff_right hno, and_iff_right hgood]
    · have hfetch := fetchField_of_fieldError l he'
      rw [hfetch, Fetched.andThen_error, or_iff_left fun ⟨hgood, _⟩ => he'.not_goodField hgood, ← hfetch]
      constructor
      · intro h
        cases hfetch.symm.trans h
        exact he'
      · exact fetchField_of_fieldError l

/-- The fields before the `k`th are good, said offset by offset. -/
theorem goodFields_take_iff {rd : ByteSource} {p k : Nat} {fs : List FieldKind} (hk : k ≤ fs.length) :
    GoodFields rd p (fs.take k) ↔ ∀ j, j < k → ∃ v, rd (p + j) = some v ∧ (fs[j]? = some .reg → v.toNat < 32) := by
  rw [GoodFields, List.length_take_of_le hk]
  refine forall₂_congr fun j hj => ?_
  rw [List.getElem?_take_of_lt hj]

end Sys2Proof

namespace Sys2Proof.Machine

/-- Where the opcode byte is there, the fetch ends in the first error of its fields (R98). -/
theorem fetchInstr_eq_error_iff {s : State} {b : Byte} {e : DecodeError} (hb : s.prog.read s.pc.toNat = some b) :
    fetchInstr s = .error e ↔ FirstFieldError s.prog.read (s.pc.toNat + 1) (Opcode.ofByte b).fields e := by
  have hop := fetchOperands_eq_fetchFields s.prog.read b (s.pc.toNat + 1) (Opcode.ofByte b)
  rw [← fetchInstr_eq_fetchOperands hb] at hop
  rw [← fetchFields_eq_error_iff (l := ⟨[], 0#16⟩), ← Fetched.andThen_ok_eq_error (g := Instr.withoutPadding), hop,
    Fetched.andThen_ok_eq_error]

theorem faultOfDecode_injective : Function.Injective faultOfDecode := by
  intro e e' h
  cases e <;> cases e' <;> cases h <;> rfl

/-- An instruction that has been decoded raises neither a stream nor an index fault (R92, R93). -/
theorem exec_ne_faultOfDecode (i : Instr) (s : State) (e : DecodeError) : exec i s ≠ .fault (faultOfDecode e) := by
  intro h
  obtain ⟨hk, -⟩ | hk | hk := exec_fault_cases h <;> cases e <;> cases hk

/-- The stream and index faults of a step are the errors of its decode (R98). -/
theorem step_eq_faultOfDecode_iff {s : State} {e : DecodeError} :
    step s = .fault (faultOfDecode e) ↔ fetchInstr s = .error e := by
  refine ⟨fun h => ?_, step_of_error⟩
  cases hf : fetchInstr s with
  | ok i n => exact absurd ((step_of_fetch hf).symm.trans h) (exec_ne_faultOfDecode i s e)
  | error e' =>
    rw [step_of_error hf, Host.Outcome.fault.injEq] at h
    rw [faultOfDecode_injective h]

/-- The first error of its fields is the fault of a step whose opcode byte is there (R98). -/
theorem step_of_firstFieldError {s : State} {b : Byte} {e : DecodeError} (hb : s.prog.read s.pc.toNat = some b)
    (h : FirstFieldError s.prog.read (s.pc.toNat + 1) (Opcode.ofByte b).fields e) :
    step s = .fault (faultOfDecode e) :=
  step_of_error ((fetchInstr_eq_error_iff hb).2 h)

/-- Where a step's stream or index fault comes from (R92, R93): the opcode byte is missing, or one of the fields of the
opcode raises it. -/
theorem step_decode_fault_cases {s : State} {e : DecodeError} (h : step s = .fault (faultOfDecode e)) :
    (s.prog.read s.pc.toNat = none ∧ e = .malformedStream s.pc.toNat) ∨
    ∃ b k kind, s.prog.read s.pc.toNat = some b ∧ (Opcode.ofByte b).fields[k]? = some kind ∧
      FieldError s.prog.read (s.pc.toNat + 1 + k) kind e := by
  have hf := step_eq_faultOfDecode_iff.1 h
  cases hb : s.prog.read s.pc.toNat with
  | none =>
    cases hf.symm.trans (decodeAt_of_none hb)
    exact .inl ⟨rfl, rfl⟩
  | some b =>
    obtain ⟨k, kind, hk, -, he⟩ := (fetchInstr_eq_error_iff hb).1 hf
    exact .inr ⟨b, k, kind, rfl, hk, he⟩

/-- Settles O9: behind good fields, the `k`th field's own error is the first. -/
theorem firstBadFieldDecidesTheFault : Obligations.FirstBadFieldDecidesTheFault := by
  refine fun s => ⟨fun hnone => step_of_error (decodeAt_of_none hnone), fun b hb k hk hbefore => ?_⟩
  have hgood := (goodFields_take_iff (Nat.le_of_lt hk)).2 hbefore
  refine ⟨fun hnone => ?_, fun v hv hreg hge => ?_⟩
  · exact step_of_firstFieldError hb ⟨k, _, List.getElem?_eq_getElem hk, hgood, .missing hnone⟩
  · exact step_of_firstFieldError hb ⟨k, .reg, hreg, hgood, .badRegister hv hge⟩

/-- Settles O10: the decode succeeds, and the step's stream and index faults are the errors of the decode. -/
theorem goodFieldsRaiseNoStreamOrIndexFault : Obligations.GoodFieldsRaiseNoStreamOrIndexFault := by
  intro s b hb hgood
  obtain ⟨i, n, hf⟩ := (decodeAt_succeeds_iff hb).2 hgood
  have hno (e : DecodeError) : step s ≠ .fault (faultOfDecode e) := fun h => by
    cases hf.symm.trans (step_eq_faultOfDecode_iff.1 h)
  exact ⟨fun a => hno (.malformedStream a), fun v => hno (.invalidRegisterIndex v)⟩

/-- A step whose opcode byte is there and one of whose fields is missing or a bad register raises the error of a field of
its opcode. -/
theorem step_raises_fieldError {s : State} {b : Byte} {k : Nat} {kind : FieldKind} {e : DecodeError}
    (hb : s.prog.read s.pc.toNat = some b) (hk : (Opcode.ofByte b).fields[k]? = some kind)
    (he : FieldError s.prog.read (s.pc.toNat + 1 + k) kind e) :
    ∃ j kind' e', (Opcode.ofByte b).fields[j]? = some kind' ∧
      FieldError s.prog.read (s.pc.toNat + 1 + j) kind' e' ∧ step s = .fault (faultOfDecode e') := by
  have hbad : ¬ GoodFields s.prog.read (s.pc.toNat + 1) (Opcode.ofByte b).fields := by
    intro hgood
    obtain ⟨hlt, -⟩ := List.getElem?_eq_some_iff.1 hk
    obtain ⟨v, hv, hreg⟩ := hgood k hlt
    exact he.not_goodField ⟨v, hv, fun h => hreg (h ▸ hk)⟩
  cases hf : fetchInstr s with
  | ok i n => exact absurd ((decodeAt_succeeds_iff hb).1 ⟨i, n, hf⟩) hbad
  | error e' =>
    obtain ⟨j, kind', hj, -, he'⟩ := (fetchInstr_eq_error_iff hb).1 hf
    exact ⟨j, kind', e', hj, he', step_of_error hf⟩

/-- Settles O59: only a register field raises the fault, and where no field is missing, a bad register field leaves the
step no other. -/
theorem invalidRegisterIndexExactlyForBadRegisterFields :
    Obligations.InvalidRegisterIndexExactlyForBadRegisterFields := by
  refine ⟨fun s v h => ?_, fun s b v j hb hpresent hreg hv hge => ?_⟩
  · obtain ⟨-, he⟩ | ⟨b, k, kind, hb, hk, he⟩ := step_decode_fault_cases (e := .invalidRegisterIndex v) h
    · cases he
    · cases he with
      | badRegister hv hge => exact ⟨hge, b, k, hb, hk, hv⟩
  · obtain ⟨k, kind, e, hk, he, hstep⟩ := step_raises_fieldError hb hreg (.badRegister hv hge)
    cases he with
    | missing hnone => exact absurd hnone (hpresent k (List.getElem?_eq_some_iff.1 hk).1)
    | badRegister => exact ⟨_, hstep⟩

end Sys2Proof.Machine
end

section
/-! MalformedStream comes from missing bytes alone, and a run reports it only from inside the buffer (R57, R92). Settles
O60. -/

namespace Sys2Proof.Machine

/-- A canonical buffer that ends before the last field of the opcode lacks that field (R26). -/
theorem read_last_field {s : State} {b : Byte} (hwf : s.prog.wf) (hb : s.prog.read s.pc.toNat = some b)
    (hsize : s.prog.size < s.pc.toNat + 1 + (Opcode.ofByte b).fields.length) :
    ∃ k, k < (Opcode.ofByte b).fields.length ∧ s.prog.read (s.pc.toNat + 1 + k) = none := by
  have hpc := Memory.lt_size_of_read hwf hb
  refine ⟨(Opcode.ofByte b).fields.length - 1, by omega, ?_⟩
  rw [Memory.read_eq_none_iff hwf]
  omega

/-- A run from inside the buffer whose first step faults reports that fault (R57). -/
theorem run_of_step_fault {s : State} {k : Fault} (hpc : s.pc.toNat < s.prog.size) (h : step s = .fault k) :
    run 1 none s = some (.faulted k, latch (.faulted k) s) :=
  runLoop_eq_some_iff.2 (.faulted ⟨hpc, rfl⟩ (runOnce_of_fault h))

/-- A run that reports a fault ends inside the buffer: the bound test let the faulting step pass, and the step left `pc`
and the buffer alone (R57, R97). -/
theorem RunsTo.pc_lt_of_faulted {budget : Option Nat} {fuel n : Nat} {s t : State} {r : RunResult} {k : Fault}
    (h : RunsTo budget fuel n s r t) (hr : r = .faulted k) : t.pc.toNat < t.prog.size := by
  induction h with
  | endOfBuffer | stepLimit | halted => cases hr
  | faulted hproceeds ho =>
    obtain ⟨-, rfl, -⟩ := faultIsPreciseAndRepeats _ _ _ ho
    exact hproceeds.1
  | continued _ _ _ ih => exact ih hr

/-- Settles O60: a missing field's error is the step's where no register field is bad, and a run's last step is inside the
buffer. -/
theorem malformedStreamExactlyForMissingBytes : Obligations.MalformedStreamExactlyForMissingBytes := by
  refine ⟨fun s a hwf h => ?_, fun s hwf hsize => ⟨_, fetchBeyondTheBufferFaults s hwf hsize⟩,
    fun s b hwf hb hsize hregs => ?_, fun fuel budget s t a h => (RunsTo.of_runLoop h).pc_lt_of_faulted rfl⟩
  · obtain ⟨hnone, -⟩ | ⟨b, k, kind, hb, hk, he⟩ := step_decode_fault_cases (e := .malformedStream a) h
    · exact .inl ((Memory.read_eq_none_iff hwf _).1 hnone)
    · cases he with
      | missing hnone =>
        exact .inr ⟨b, k, hb, (List.getElem?_eq_some_iff.1 hk).1, (Memory.read_eq_none_iff hwf _).1 hnone⟩
  · obtain ⟨k, hk, hnone⟩ := read_last_field hwf hb hsize
    obtain ⟨j, kind, e, hj, he, hstep⟩ := step_raises_fieldError hb (List.getElem?_eq_getElem hk) (.missing hnone)
    cases he with
    | missing => exact ⟨_, _, hstep, run_of_step_fault (Memory.lt_size_of_read hwf hb) hstep⟩
    | badRegister hv hge => exact absurd (hregs j _ hj hv) (Nat.not_lt_of_le hge)

end Sys2Proof.Machine
end
